-- ==== Sys2Proof/Word.lean ====
section
/-! DEFINITION. The widths SI-CORE moves data in (spec/00_scope.md R9, R10; spec/30_encoding.md R80). -/

namespace Sys2Proof

/-- An 8-bit data value: a memory byte, a device value or a vector byte (R9). -/
abbrev Byte := BitVec 8

/-- A 16-bit bus address (R9). -/
abbrev Addr := BitVec 16

/-- An 8-bit device number (R9). -/
abbrev Device := BitVec 8

/-- A 32-bit transaction or event word (R80, R90). -/
abbrev Word := BitVec 32

/-- A 32-bit pixel of the frame buffer (R36). -/
abbrev Pixel := BitVec 32

end Sys2Proof
end

