-- ==== Sys2Proof/Syntax.lean ====
section
/-! DEFINITION. The instructions of SI-CORE: one constructor for each mnemonic of spec/opcode_table.json.
SI-CORE's instructions are the transactions it accepts (spec/00_scope.md R2), split by address region and device as
spec/30_encoding.md R93 splits them. The seven EVT rows are the events it emits (R90). -/

namespace Sys2Proof

/-- The ten sound cues, in the order of their ids 0 to 9 (spec/43_sound_trigger.md R170). -/
inductive Cue
  | ufo | ufoHit | fire | explosion | invaderDie | fleet1 | fleet2 | fleet3 | fleet4 | coin
deriving DecidableEq, Repr, Inhabited

/-- The run-time diagnostics (spec/60_exceptions.md R272). -/
inductive DiagCode
  | rdOob | wrOob | wrRom
deriving DecidableEq, Repr, Inhabited

/-- One constructor for each mnemonic of the opcode table (R93; the event rows are R90's). -/
inductive Instr
  /-- MEMRD.ROM a (R100). -/
  | memrdRom (a : Addr)
  /-- MEMRD.RAM a (R101). -/
  | memrdRam (a : Addr)
  /-- MEMRD.MIRROR a (R102). -/
  | memrdMirror (a : Addr)
  /-- MEMRD.OOB a (R103). -/
  | memrdOob (a : Addr)
  /-- MEMWR.ROM a, v (R104). -/
  | memwrRom (a : Addr) (v : Byte)
  /-- MEMWR.RAM a, v (R105). -/
  | memwrRam (a : Addr) (v : Byte)
  /-- MEMWR.MIRROR a, v (R106). -/
  | memwrMirror (a : Addr) (v : Byte)
  /-- MEMWR.OOB a, v (R107). -/
  | memwrOob (a : Addr) (v : Byte)
  /-- IN0: read device 0 (R121). -/
  | in0
  /-- IN1: read device 1 (R122). -/
  | in1
  /-- IN2: read device 2 (R123). -/
  | in2
  /-- IN3: read device 3 (R124). -/
  | in3
  /-- IN.UNMAPPED n: read a device that has no read function (R125). -/
  | inUnmapped (n : Device)
  /-- OUT2 v: write device 2 (R127). -/
  | out2 (v : Byte)
  /-- OUT3 v: write device 3 (R128). -/
  | out3 (v : Byte)
  /-- OUT4 v: write device 4 (R129). -/
  | out4 (v : Byte)
  /-- OUT5 v: write device 5 (R130). -/
  | out5 (v : Byte)
  /-- OUT.UNMAPPED n, v: write a device that has no write function (R131). -/
  | outUnmapped (n : Device) (v : Byte)
  /-- TICK in (R191). -/
  | tick (snapshot : BitVec 7)
  /-- PAUSE p (R255). -/
  | pause (p : Bool)
  /-- SETUP ships, extra, coin; the ROM payload comes beside the word (R251, R85). -/
  | setup (ships : BitVec 2) (extra coin : Bool)
  /-- SHUTDOWN (R254). -/
  | shutdown
  /-- FBRD p (R256). -/
  | fbrd (p : BitVec 16)
  /-- STEPDONE c (R195). -/
  | stepdone (c : BitVec 24)
  /-- The event STEP (R194). -/
  | evtStep
  /-- The event IRQ(v) (R201). -/
  | evtIrq (v : Byte)
  /-- The event PLAY(cue, loop) (R172). -/
  | evtPlay (cue : Cue) (loop : Bool)
  /-- The event STOP(cue) (R172). -/
  | evtStop (cue : Cue)
  /-- The event FRAME (R231). -/
  | evtFrame
  /-- The event TICKDONE (R199). -/
  | evtTickdone
  /-- The event DIAG(code, loc) (R272). -/
  | evtDiag (code : DiagCode) (loc : Addr)
deriving DecidableEq, Repr

/-- The rows of format EVT32: words that SI-CORE emits and never accepts (R90, R93). -/
def Instr.isEvent : Instr → Bool
  | .evtStep | .evtIrq _ | .evtPlay _ _ | .evtStop _ | .evtFrame | .evtTickdone | .evtDiag _ _ => true
  | .memrdRom _ | .memrdRam _ | .memrdMirror _ | .memrdOob _ => false
  | .memwrRom _ _ | .memwrRam _ _ | .memwrMirror _ _ | .memwrOob _ _ => false
  | .in0 | .in1 | .in2 | .in3 | .inUnmapped _ => false
  | .out2 _ | .out3 _ | .out4 _ | .out5 _ | .outUnmapped _ _ => false
  | .tick _ | .pause _ | .setup _ _ _ | .shutdown | .fbrd _ | .stepdone _ => false

end Sys2Proof
end

