-- ==== Sys2Proof/Config.lean ====
section
/-! DEFINITION. The implementation parameters of spec/00_scope.md R8. Every value the source leaves OPEN is an opaque
constant here: nothing in Lean can evaluate it, so a claim that holds of the model holds for every legal value.
`Config.params` gathers the plain ones, and the meanings hand it to the shared operations as an argument, so that the
test vectors can hand them the values of spec/95_test_vectors.md. -/

namespace Sys2Proof

/-- P1_MAP: the bit of device 1 that carries each control (R8, R132). -/
structure P1Map where
  credit : Fin 8
  start2 : Fin 8
  start1 : Fin 8
  fixed  : Fin 8
  fire   : Fin 8
  left   : Fin 8
  right  : Fin 8
deriving DecidableEq, Repr, Inhabited

/-- The seven bit positions P1_MAP assigns. -/
def P1Map.bits (m : P1Map) : List (Fin 8) :=
  [m.credit, m.start2, m.start1, m.fixed, m.fire, m.left, m.right]

/-- P2_MAP: the bit of device 2 that carries each control; `ships` is the low bit of the two-bit ship count, whose
high bit is the next one up (R8, R132). -/
structure P2Map where
  ships : Fin 7
  tilt  : Fin 8
  extra : Fin 8
  fire  : Fin 8
  left  : Fin 8
  right : Fin 8
  coin  : Fin 8
deriving DecidableEq, Repr, Inhabited

/-- The eight bit positions P2_MAP assigns. -/
def P2Map.bits (m : P2Map) : List (Fin 8) :=
  [m.ships.castSucc, m.ships.succ, m.tilt, m.extra, m.fire, m.left, m.right, m.coin]

/-- The parameters of R8 that are plain data, under R8's names. A cue map lists the cue of bits 0 to 7 in order. -/
structure Params where
  cyclesPerTick : Nat
  midThreshold  : Nat
  midVector     : Byte
  endVector     : Byte
  port0Value    : Byte
  p1Map         : P1Map
  p2Map         : P2Map
  cueMap3       : List (Option Cue)
  cueMap5       : List (Option Cue)
  pixelOn       : Pixel
  pixelOff      : Pixel
deriving DecidableEq, Repr, Inhabited

/-- R171: a device's map has one entry for each of bits 0 to 7, places each of the device's cues at exactly one bit,
and places no other cue. -/
abbrev CueMapFor (cues : List Cue) (map : List (Option Cue)) : Prop :=
  map.length = 8 ∧ (∀ c ∈ cues, map.count (some c) = 1) ∧ (∀ e ∈ map, e = none ∨ e ∈ cues.map some)

/-- The cues of device 3 (R171). -/
def device3Cues : List Cue := [.ufo, .fire, .explosion, .invaderDie]

/-- The cues of device 5 (R171). -/
def device5Cues : List Cue := [.ufoHit, .fleet1, .fleet2, .fleet3, .fleet4]

/-- The values R8 admits: 0 < CYCLES_PER_TICK, 0 < MID_THRESHOLD ≤ CYCLES_PER_TICK, bit positions that differ (R132),
cue maps of R171, and two pixel values that differ (spec/92_eei_decisions.md D24). -/
abbrev Params.Legal (p : Params) : Prop :=
  0 < p.cyclesPerTick ∧ 0 < p.midThreshold ∧ p.midThreshold ≤ p.cyclesPerTick ∧
  p.p1Map.bits.Nodup ∧ p.p2Map.bits.Nodup ∧
  CueMapFor device3Cues p.cueMap3 ∧ CueMapFor device5Cues p.cueMap5 ∧
  p.pixelOn ≠ p.pixelOff

/-- The parameter values spec/95_test_vectors.md uses: B = 100, M = 50, and R8's defaults. They are test values: no
meaning uses them unless the opaque choice below is not one R8 admits. -/
def Params.testVectors : Params where
  cyclesPerTick := 100
  midThreshold := 50
  midVector := 0xCF
  endVector := 0xD7
  port0Value := 0x0E
  p1Map := ⟨0, 1, 2, 3, 4, 5, 6⟩
  p2Map := ⟨0, 2, 3, 4, 5, 6, 7⟩
  cueMap3 := [some .ufo, some .fire, some .explosion, some .invaderDie, none, none, none, none]
  cueMap5 := [some .fleet1, some .fleet2, some .fleet3, some .fleet4, some .ufoHit, none, none, none]
  pixelOn := 0xFFFFFFFF
  pixelOff := 0x00000000

/-- SR_INIT: what the shift register holds after SETUP (R8, spec/10_state.md R26, R27). -/
structure ShiftInit where
  low    : Byte
  high   : Byte
  offset : BitVec 3
deriving DecidableEq, Repr, Inhabited

/-- The outcome of SETUP's buffer allocation (spec/46_control.md R253): it succeeds, or the memory buffer or the
display buffer cannot be allocated. -/
inductive AllocDraw
  | ok | memoryFails | displayFails
deriving DecidableEq, Repr, Inhabited

namespace Config

/-- The implementation's choice of R8's OPEN parameters (notes/assumptions/1.md). -/
opaque rawParams : Params

/-- The parameters of this machine: the implementation's choice where R8 admits it. Every legal choice is possible, and
an illegal one is no implementation of the spec (notes/assumptions/1.md). -/
def params : Params := if rawParams.Legal then rawParams else Params.testVectors

/-- RAM_INIT: the byte at each backing-store index in [0x2000,0x4000) after the SETUP that makes the n-th allocation
(R25; notes/assumptions/2.md). -/
opaque ramInit (n : Nat) : Nat → Byte

/-- SR_INIT, after the SETUP that makes the n-th allocation (R26, R27; notes/assumptions/2.md). -/
opaque srInit (n : Nat) : ShiftInit

/-- FB_INIT: the pixel at each index of the frame buffer after the SETUP that makes the n-th allocation (R36;
notes/assumptions/2.md). -/
opaque fbInit (n : Nat) : Nat → Pixel

/-- How the n-th allocation of the run ends (R253; notes/assumptions/3.md). -/
opaque allocDraw (n : Nat) : AllocDraw

end Config

end Sys2Proof
end

