-- ==== Sys2Proof/WellFormed.lean ====
section
/-! DEFINITION. When an instruction's operands are ones its row of the opcode table admits
(spec/30_encoding.md R93, R86). The widths of the other operands say all there is to say about them. -/

namespace Sys2Proof

/-- The operand ranges of R93's rows: the address region of a memory row, the device numbers of an unmapped row,
and FBRD's pixel index below 0xE000. -/
def Instr.wellFormed : Instr → Bool
  | .memrdRom a | .memwrRom a _ => a.toNat < 0x2000
  | .memrdRam a | .memwrRam a _ => 0x2000 ≤ a.toNat && a.toNat < 0x4000
  | .memrdMirror a | .memwrMirror a _ => 0x4000 ≤ a.toNat && a.toNat < 0x6000
  | .memrdOob a | .memwrOob a _ => 0x6000 ≤ a.toNat
  | .inUnmapped n => 4 ≤ n.toNat
  | .outUnmapped n _ => n.toNat < 2 || 6 ≤ n.toNat
  | .fbrd p => p.toNat < 0xE000
  | .in0 | .in1 | .in2 | .in3 | .out2 _ | .out3 _ | .out4 _ | .out5 _ => true
  | .tick _ | .pause _ | .setup _ _ _ | .shutdown | .stepdone _ => true
  | .evtStep | .evtIrq _ | .evtPlay _ _ | .evtStop _ | .evtFrame | .evtTickdone | .evtDiag _ _ => true

end Sys2Proof
end

