-- ==== Sys2Proof/Decode.lean ====
section
/-! DEFINITION. The transaction word and the event word (spec/30_encoding.md): fields, decoder, encoder, the address
decoder of spec/20_memory.md R61 that R93's rows rest on, and the abstract form of R91's and R92's assembler lines. -/

namespace Sys2Proof

/-! ## Fields (R80) -/

/-- OP, bits 31..28. -/
def fieldOp (w : Word) : BitVec 4 := w.extractLsb' 28 4

/-- RSV, bits 27..24. -/
def fieldRsv (w : Word) : BitVec 4 := w.extractLsb' 24 4

/-- D, bits 23..16. -/
def fieldD (w : Word) : Byte := w.extractLsb' 16 8

/-- A, bits 15..0. -/
def fieldA (w : Word) : Addr := w.extractLsb' 0 16

/-- STEPDONE's cost, bits 23..0 (R83). -/
def fieldCost (w : Word) : BitVec 24 := w.extractLsb' 0 24

/-- A word from its OP, D and A fields, with RSV = 0. -/
def packWord (op : BitVec 4) (d : Byte) (a : Addr) : Word := op ++ (0#4) ++ d ++ a

/-- An A field that holds a device number: A[15:8] = 0 (R82). -/
def deviceField (n : Device) : Addr := (0#8) ++ n

/-! ## The address decoder (spec/20_memory.md R61) -/

/-- A region of the memory map, with the backing-store index an address of it selects. -/
inductive Region
  | rom (index : Nat)
  | ram (index : Nat)
  | mirror (index : Nat)
  | oob
deriving DecidableEq, Repr

/-- R61: the region of a bus address; the mirror subtracts 0x2000, and nothing from 0x6000 up touches the store. -/
def decodeAddr (a : Addr) : Region :=
  if a.toNat < 0x2000 then .rom a.toNat
  else if a.toNat < 0x4000 then .ram a.toNat
  else if a.toNat < 0x6000 then .mirror (a.toNat - 0x2000)
  else .oob

/-! ## Transactions (R81, R82) -/

/-- The ten transactions before R93 splits them by address and device. -/
inductive Txn
  | memrd (a : Addr)
  | memwr (a : Addr) (v : Byte)
  | iord (n : Device)
  | iowr (n : Device) (v : Byte)
  | tick (snapshot : BitVec 7)
  | pause (p : Bool)
  | setup (ships : BitVec 2) (extra coin : Bool)
  | shutdown
  | fbrd (p : BitVec 16)
  | stepdone (c : BitVec 24)
deriving DecidableEq, Repr

/-- R87's `require`: the value where the condition holds, else Refused(RESERVED_ENCODING). -/
def require {α : Type} (condition : Prop) [Decidable condition] (value : α) : Option α :=
  if condition then some value else none

/-- R87's decoder; `none` is Refused(RESERVED_ENCODING), for exactly the words R86 lists. -/
def decodeTxn (w : Word) : Option Txn :=
  let d := fieldD w
  let a := fieldA w
  if fieldRsv w ≠ 0 then none
  else match (fieldOp w).toNat with
    | 0x0 => require (d = 0) (.memrd a)
    | 0x1 => some (.memwr a d)
    | 0x2 => require (d = 0 ∧ a.extractLsb' 8 8 = 0) (.iord (a.extractLsb' 0 8))
    | 0x3 => require (a.extractLsb' 8 8 = 0) (.iowr (a.extractLsb' 0 8) d)
    | 0x4 => require (d = 0 ∧ a.extractLsb' 7 9 = 0) (.tick (a.extractLsb' 0 7))
    | 0x5 => require (d = 0 ∧ a.extractLsb' 1 15 = 0) (.pause (a.getLsbD 0))
    | 0x6 => require (d = 0 ∧ a.extractLsb' 4 12 = 0) (.setup (a.extractLsb' 0 2) (a.getLsbD 2) (a.getLsbD 3))
    | 0x7 => require (d = 0 ∧ a = 0) .shutdown
    | 0x8 => require (d = 0 ∧ a.toNat < 0xE000) (.fbrd a)
    | 0x9 => some (.stepdone (fieldCost w))
    | _ => none

/-- The row of R93 a memory read falls in. -/
def rowOfRead (a : Addr) : Instr :=
  match decodeAddr a with
  | .rom _ => .memrdRom a
  | .ram _ => .memrdRam a
  | .mirror _ => .memrdMirror a
  | .oob => .memrdOob a

/-- The row of R93 a memory write falls in. -/
def rowOfWrite (a : Addr) (v : Byte) : Instr :=
  match decodeAddr a with
  | .rom _ => .memwrRom a v
  | .ram _ => .memwrRam a v
  | .mirror _ => .memwrMirror a v
  | .oob => .memwrOob a v

/-- IORD's dispatch (spec/41_port_io.md R120). -/
def rowOfIord (n : Device) : Instr :=
  if n = 0 then .in0 else if n = 1 then .in1 else if n = 2 then .in2 else if n = 3 then .in3
  else .inUnmapped n

/-- IOWR's dispatch (spec/41_port_io.md R120). -/
def rowOfIowr (n : Device) (v : Byte) : Instr :=
  if n = 2 then .out2 v else if n = 3 then .out3 v else if n = 4 then .out4 v
  else if n = 5 then .out5 v else .outUnmapped n v

/-- The row of R93 a transaction falls in. -/
def Txn.row : Txn → Instr
  | .memrd a => rowOfRead a
  | .memwr a v => rowOfWrite a v
  | .iord n => rowOfIord n
  | .iowr n v => rowOfIowr n v
  | .tick x => .tick x
  | .pause p => .pause p
  | .setup ships extra coin => .setup ships extra coin
  | .shutdown => .shutdown
  | .fbrd p => .fbrd p
  | .stepdone c => .stepdone c

/-- The decoder of the transaction channel: total, and `none` on the words R86 makes illegal. -/
def decode (w : Word) : Option Instr := (decodeTxn w).map Txn.row

/-! ## Cue ids and diagnostic codes -/

/-- The ids of R170. -/
def Cue.id : Cue → BitVec 4
  | .ufo => 0 | .ufoHit => 1 | .fire => 2 | .explosion => 3 | .invaderDie => 4
  | .fleet1 => 5 | .fleet2 => 6 | .fleet3 => 7 | .fleet4 => 8 | .coin => 9

/-- The cue of an id; ids 10 to 15 are no cue (R170). -/
def Cue.ofId (n : BitVec 4) : Option Cue :=
  [Cue.ufo, .ufoHit, .fire, .explosion, .invaderDie, .fleet1, .fleet2, .fleet3, .fleet4, .coin][n.toNat]?

/-- The codes of R272. -/
def DiagCode.code : DiagCode → Byte
  | .rdOob => 0x01 | .wrOob => 0x02 | .wrRom => 0x03

/-- The diagnostic of a code; R272 gives the codes 1 to 3 alone. -/
def DiagCode.ofCode (b : Byte) : Option DiagCode :=
  if b = 0x01 then some .rdOob else if b = 0x02 then some .wrOob else if b = 0x03 then some .wrRom else none

/-! ## The encoder (R82, R90) -/

/-- The word of an instruction: of a transaction by R82, of an event by R90. -/
def encode : Instr → Word
  | .memrdRom a | .memrdRam a | .memrdMirror a | .memrdOob a => packWord 0x0 0 a
  | .memwrRom a v | .memwrRam a v | .memwrMirror a v | .memwrOob a v => packWord 0x1 v a
  | .in0 => packWord 0x2 0 0x0000
  | .in1 => packWord 0x2 0 0x0001
  | .in2 => packWord 0x2 0 0x0002
  | .in3 => packWord 0x2 0 0x0003
  | .inUnmapped n => packWord 0x2 0 (deviceField n)
  | .out2 v => packWord 0x3 v 0x0002
  | .out3 v => packWord 0x3 v 0x0003
  | .out4 v => packWord 0x3 v 0x0004
  | .out5 v => packWord 0x3 v 0x0005
  | .outUnmapped n v => packWord 0x3 v (deviceField n)
  | .tick x => packWord 0x4 0 ((0#9) ++ x)
  | .pause p => packWord 0x5 0 ((0#15) ++ BitVec.ofBool p)
  | .setup ships extra coin => packWord 0x6 0 ((0#12) ++ BitVec.ofBool coin ++ BitVec.ofBool extra ++ ships)
  | .shutdown => packWord 0x7 0 0
  | .fbrd p => packWord 0x8 0 p
  | .stepdone c => packWord 0x9 (c.extractLsb' 16 8) (c.extractLsb' 0 16)
  | .evtStep => packWord 0x0 0 0
  | .evtIrq v => packWord 0x1 v 0
  | .evtPlay cue loop => packWord 0x2 0 ((0#11) ++ BitVec.ofBool loop ++ cue.id)
  | .evtStop cue => packWord 0x3 0 ((0#12) ++ cue.id)
  | .evtFrame => packWord 0x4 0 0
  | .evtTickdone => packWord 0x5 0 0
  | .evtDiag code loc => packWord 0x6 code.code loc

/-! ## The event channel (R90) -/

/-- The decoder of a trace: the event a word of the event channel stands for. A word that R90 gives no event is
refused; a field R90 does not list is 0. -/
def decodeEvent (w : Word) : Option Instr :=
  let d := fieldD w
  let a := fieldA w
  if fieldRsv w ≠ 0 then none
  else match (fieldOp w).toNat with
    | 0x0 => require (d = 0 ∧ a = 0) .evtStep
    | 0x1 => require (a = 0) (.evtIrq d)
    | 0x2 =>
      (Cue.ofId (a.extractLsb' 0 4)).bind
        (fun c => require (d = 0 ∧ a.extractLsb' 5 11 = 0) (.evtPlay c (a.getLsbD 4)))
    | 0x3 =>
      (Cue.ofId (a.extractLsb' 0 4)).bind (fun c => require (d = 0 ∧ a.extractLsb' 4 12 = 0) (.evtStop c))
    | 0x4 => require (d = 0 ∧ a = 0) .evtFrame
    | 0x5 => require (d = 0 ∧ a = 0) .evtTickdone
    | 0x6 => (DiagCode.ofCode d).map (fun c => .evtDiag c a)
    | _ => none

/-! ## The host's numbering of a word -/

/-- The instruction the transaction decoder reads from a word whose bits are `w`, bits from `nbits` up taken as 0.
A transaction is one 32-bit word (R80), so the table's numbering and the word's are the same. The words of the event
rows are words of the transaction channel too, and are read as those here (notes/assumptions/6.md). -/
def decodeTableWord (nbits w : Nat) : Option Instr :=
  let bits := w % 2 ^ nbits
  if bits < 2 ^ 32 then decode (BitVec.ofNat 32 bits) else none

/-! ## Assembler lines (R91, R92) -/

/-- The button names of a `tick` line (R91). -/
inductive Button
  | left | right | fire | start1 | start2 | credit | tilt
deriving DecidableEq, Repr

/-- The bit of the InputSnapshot a button sets (R84, spec/10_state.md R30). -/
def Button.bit : Button → Nat
  | .left => 0 | .right => 1 | .fire => 2 | .start1 => 3 | .start2 => 4 | .credit => 5 | .tilt => 6

/-- The snapshot in which exactly the named buttons are active. -/
def snapshotOf (names : List Button) : BitVec 7 :=
  names.foldl (fun m b => m ||| (1#7 <<< b.bit)) 0#7

/-- A line of a transaction script, by its parts: the transaction lines of R91, then the pseudo-instructions of R92. -/
inductive AsmLine
  | rd (a : Addr) | wr (a : Addr) (v : Byte) | inp (n : Device) | out (n : Device) (v : Byte)
  | tick (m : BitVec 7) | tickNames (names : List Button) | pause (p : Bool)
  | setup (ships : BitVec 2) (extra coin : Bool) | shutdown | fbrd (p : BitVec 16) | done (c : BitVec 24)
  | shift (v : Byte) | shamt (k : Byte) | shread | snd3 (v : Byte) | snd5 (v : Byte) | fbrdXY (x y : Byte)
deriving DecidableEq, Repr

/-- The one transaction a line stands for (R91, R92). -/
def AsmLine.txn : AsmLine → Txn
  | .rd a => .memrd a
  | .wr a v => .memwr a v
  | .inp n => .iord n
  | .out n v => .iowr n v
  | .tick m => .tick m
  | .tickNames names => .tick (snapshotOf names)
  | .pause p => .pause p
  | .setup ships extra coin => .setup ships extra coin
  | .shutdown => .shutdown
  | .fbrd p => .fbrd p
  | .done c => .stepdone c
  | .shift v => .iowr 4 v
  | .shamt k => .iowr 2 k
  | .shread => .iord 3
  | .snd3 v => .iowr 3 v
  | .snd5 v => .iowr 5 v
  | .fbrdXY x y => .fbrd (y ++ x)

/-- The instruction a line stands for, or `none` where it is no legal transaction. -/
def AsmLine.assemble (l : AsmLine) : Option Instr :=
  let i := l.txn.row
  if i.wellFormed then some i else none

end Sys2Proof
end

