-- ==== Sys2Proof/Machine/State.lean ====
section
/-! DEFINITION. The state of SI-CORE (spec/10_state.md R20), the model's own interface fields beside it, and the state
at power-on (spec/70_reset_and_hazards.md R300). -/

namespace Sys2Proof.Machine

/-- PHASE (R22). -/
inductive Phase
  | idle | stepWait
deriving DecidableEq, Repr

/-- LIFECYCLE (R34). -/
inductive Lifecycle
  | off | on
deriving DecidableEq, Repr

/-- The events SI-CORE emits (spec/00_scope.md R12). -/
inductive Event
  | step
  | irq (vector : Byte)
  | play (cue : Cue) (loop : Bool)
  | stop (cue : Cue)
  | frame
  | tickdone
  | diag (code : DiagCode) (loc : Addr)
deriving DecidableEq, Repr

/-- What a transaction answers (spec/30_encoding.md R89): no data, an 8-bit value, or a 32-bit pixel. -/
inductive Answer
  | noData
  | byte (b : Byte)
  | pixel (p : Pixel)
deriving DecidableEq, Repr

/-- SETUP's out-of-band payload: four ROM images, each a byte string or missing (R85). -/
structure RomImages where
  image0 : Option (List Byte)
  image1 : Option (List Byte)
  image2 : Option (List Byte)
  image3 : Option (List Byte)
deriving DecidableEq, Repr

/-- A transaction as a caller presents it: its word, and the ROM payload beside it, which SETUP alone reads. -/
structure Request where
  word : Word
  roms : RomImages
deriving DecidableEq, Repr

/-- The bytes of MEM that have been written since SETUP allocated it, as (index, byte) pairs with the indices strictly
rising. SETUP writes every ROM byte; a RAM index that is not listed holds its RAM_INIT byte (R25). -/
abbrev Memory := List Host.Cell

/-- The canonical form: the indices strictly rise and lie in the 16 KiB backing store (R23). -/
abbrev Memory.wf (m : Memory) : Prop :=
  m.Pairwise (fun x y => x.1 < y.1) ∧ ∀ c ∈ m, c.1 < 0x4000

/-- SI-CORE takes no fault: "No SI-CORE behaviour is a fault" (spec/93_implementation_defined.md). Every run-time error
is a done transaction with a defined result, and a failed SETUP answers a status byte (spec/60_exceptions.md R270,
R271). -/
inductive Fault
deriving DecidableEq, Repr

/-- Why a transaction has no meaning (spec/00_scope.md R13, spec/60_exceptions.md R273). -/
inductive Refusal
  /-- Raised by an arm of `exec` whose instruction has no meaning yet; no arm raises it. Safe. -/
  | notModelled (mnemonic : String)
  /-- Raised by `step` on a word that R86 makes illegal, and by a meaning on operands that no legal word of its row
  carries. Safe: R86 gives such a word no meaning. -/
  | reservedEncoding
  /-- Raised by a meaning whose transaction R88 does not accept in the present LIFECYCLE or PHASE. Safe: R88 gives it
  no meaning there. -/
  | wrongState
deriving DecidableEq, Repr

/-- The state: R20's elements under their own names, the event trace (R12), and the model's interface fields. -/
structure State where
  /-- MEM, the 16 KiB backing store (R23). -/
  mem : Memory
  /-- SR_LOW (R26). -/
  srLow : Byte
  /-- SR_HIGH (R26). -/
  srHigh : Byte
  /-- SR_OFFSET (R27). -/
  srOffset : BitVec 3
  /-- LATCH3 (R28). -/
  latch3 : Byte
  /-- LATCH5 (R28). -/
  latch5 : Byte
  /-- CREDIT_PREV (R29). -/
  creditPrev : Bool
  /-- INPUT, with the bits of R30. -/
  input : BitVec 7
  /-- DIP_SHIPS (R31). -/
  dipShips : BitVec 2
  /-- DIP_EXTRA (R31). -/
  dipExtra : Bool
  /-- DIP_COIN (R31). -/
  dipCoin : Bool
  /-- CYCLES, an unbounded natural number (R32). -/
  cycles : Nat
  /-- MID_FIRED (R33). -/
  midFired : Bool
  /-- END_FIRED (R33). -/
  endFired : Bool
  /-- PHASE (R22). -/
  phase : Phase
  /-- LIFECYCLE (R34). -/
  lifecycle : Lifecycle
  /-- PAUSED (R35). -/
  paused : Bool
  /-- FB, index p = y·256 + x (R36). No pixel is listed until the first conversion writes all 57344 of them; a pixel
  that is not listed holds its FB_INIT value. -/
  fb : List Pixel
  /-- The event trace, oldest first (R12). -/
  trace : List Event
  /-- The model's own: what the last transaction answered (R89). -/
  answer : Answer
  /-- The model's own: the transactions the host and the CPU core will present, the next one first (R6). -/
  requests : List Request
  /-- The model's own: the ROM payload presented beside the transaction being run (R85). -/
  romPort : RomImages
  /-- The model's own: how many allocations the SETUPs of the run have made, and so the index of the last draw (R253)
  and of the unknown first contents in force. -/
  allocDraws : Nat
deriving DecidableEq, Repr

/-- No image presented. -/
def RomImages.missing : RomImages := ⟨none, none, none, none⟩

/-- Power-on: OFF, IDLE and not paused (R300). No other element of R20 exists then; the zeros stand for that and no
rule reads them (notes/assumptions/4.md). -/
def State.reset : State where
  mem := []
  srLow := 0
  srHigh := 0
  srOffset := 0
  latch3 := 0
  latch5 := 0
  creditPrev := false
  input := 0
  dipShips := 0
  dipExtra := false
  dipCoin := false
  cycles := 0
  midFired := false
  endFired := false
  phase := .idle
  lifecycle := .off
  paused := false
  fb := []
  trace := []
  answer := .noData
  requests := []
  romPort := .missing
  allocDraws := 0

end Sys2Proof.Machine
end

