-- ==== Sys2Proof/Machine/Ops.lean ====
section
/-! DEFINITION. The operations every meaning is written over: the backing store, the event trace, the answer, the
acceptance table of spec/30_encoding.md R88, and the interrupt assertion. -/

namespace Sys2Proof.Machine

/-! ## The backing store (spec/00_scope.md R11: `mem[i]` and `mem[i] <- v`) -/

/-- The byte listed at an index, if one has been written there. -/
def Memory.read? : Memory → Nat → Option Byte
  | [], _ => none
  | (k, b) :: rest, i => if k = i then some b else Memory.read? rest i

/-- Lists byte `v` at index `i`, keeping the indices in rising order. -/
def Memory.write : Memory → Nat → Byte → Memory
  | [], i, v => [(i, v)]
  | (k, b) :: rest, i, v =>
    if i < k then (i, v) :: (k, b) :: rest
    else if i = k then (i, v) :: rest
    else (k, b) :: Memory.write rest i v

/-- A byte string laid out from index `base` up. -/
def Memory.place (base : Nat) : List Byte → Memory
  | [] => []
  | b :: rest => (base, b) :: Memory.place (base + 1) rest

/-- `mem[i]`: the byte written there, or RAM_INIT's where none has been (R25). -/
def State.memByte (s : State) (i : Nat) : Byte := (s.mem.read? i).getD (Config.ramInit s.allocDraws i)

/-- `mem[i] <- v`. -/
def State.writeMem (s : State) (i : Nat) (v : Byte) : State := { s with mem := s.mem.write i v }

/-- Pixel `p` of FB: the one the last conversion wrote, or FB_INIT's before the first (R36). -/
def State.fbPixel (s : State) (p : Nat) : Pixel := (s.fb[p]?).getD (Config.fbInit s.allocDraws p)

/-! ## Events and answers -/

/-- `emit`: appends events to the trace, in order (R11, R12). -/
def State.emit (s : State) (es : List Event) : State := { s with trace := s.trace ++ es }

/-- The answer of the transaction (R89). -/
def State.respond (s : State) (a : Answer) : State := { s with answer := a }

/-- The interrupt assertion, SI-CORE's whole part in an interrupt: the one-time event IRQ(v). SI-CORE saves nothing,
changes no mode and has no return from it (spec/44_tick_scheduler.md R201, spec/60_exceptions.md R277, R278). -/
def State.assertInterrupt (s : State) (vector : Byte) : State := s.emit [.irq vector]

/-! ## Acceptance (R88) -/

/-- MEMRD, MEMWR, IORD, IOWR: accepted while ON, in either phase. -/
abbrev State.AcceptsBus (s : State) : Prop := s.lifecycle = .on

/-- TICK, SHUTDOWN, FBRD: accepted while ON and IDLE. -/
abbrev State.AcceptsHost (s : State) : Prop := s.lifecycle = .on ∧ s.phase = .idle

/-- STEPDONE: accepted while ON and in STEP_WAIT. -/
abbrev State.AcceptsStepdone (s : State) : Prop := s.lifecycle = .on ∧ s.phase = .stepWait

/-- PAUSE: accepted while IDLE, OFF or ON (spec/46_control.md R255). -/
abbrev State.AcceptsPause (s : State) : Prop := s.phase = .idle

/-- SETUP: accepted while OFF (R251). -/
abbrev State.AcceptsSetup (s : State) : Prop := s.lifecycle = .off

/-- A transaction's end: `t` where the present state accepts it, else Refused(WRONG_STATE). -/
def acceptIf (accepts : Prop) [Decidable accepts] (t : State) : Host.Outcome State Fault Refusal :=
  if accepts then .next t else .refused .wrongState

end Sys2Proof.Machine
end

