-- ==== Sys2Proof/Machine/Operands.lean ====
section
/-! DEFINITION. How the read words and the frame buffer are assembled from bits: device 1 and device 2
(spec/41_port_io.md R122, R123), the shift register's window (spec/42_shift_register.md R153), and the video
converter's expansion of a byte (spec/45_video_converter.md R231). -/

namespace Sys2Proof.Machine

/-- The bits of the InputSnapshot (spec/10_state.md R30). -/
def inputLeft (x : BitVec 7) : Bool := x.getLsbD 0
/-- RIGHT, bit 1. -/
def inputRight (x : BitVec 7) : Bool := x.getLsbD 1
/-- FIRE, bit 2. -/
def inputFire (x : BitVec 7) : Bool := x.getLsbD 2
/-- START1, bit 3. -/
def inputStart1 (x : BitVec 7) : Bool := x.getLsbD 3
/-- START2, bit 4. -/
def inputStart2 (x : BitVec 7) : Bool := x.getLsbD 4
/-- CREDIT, bit 5. -/
def inputCredit (x : BitVec 7) : Bool := x.getLsbD 5
/-- TILT, bit 6. -/
def inputTilt (x : BitVec 7) : Bool := x.getLsbD 6

/-- `v[i] <- b` (spec/00_scope.md R10). -/
def setBit (v : Byte) (i : Nat) (b : Bool) : Byte :=
  if b then v ||| (1#8 <<< i) else v &&& ~~~(1#8 <<< i)

/-- Device 1's word: the controls and the fixed bit, at P1_MAP's positions; every other bit 0 (R122). -/
def controlsWord (m : P1Map) (x : BitVec 7) : Byte :=
  let v := setBit 0x00 m.credit (inputCredit x)
  let v := setBit v m.start2 (inputStart2 x)
  let v := setBit v m.start1 (inputStart1 x)
  let v := setBit v m.fixed true
  let v := setBit v m.fire (inputFire x)
  let v := setBit v m.left (inputLeft x)
  setBit v m.right (inputRight x)

/-- Device 2's word: the DIP switches, the tilt bit and the controls again, at P2_MAP's positions (R123). -/
def dipWord (m : P2Map) (ships : BitVec 2) (extra coin : Bool) (x : BitVec 7) : Byte :=
  let v := setBit 0x00 m.ships (ships.getLsbD 0)
  let v := setBit v (m.ships.val + 1) (ships.getLsbD 1)
  let v := setBit v m.tilt (inputTilt x)
  let v := setBit v m.extra extra
  let v := setBit v m.fire (inputFire x)
  let v := setBit v m.left (inputLeft x)
  let v := setBit v m.right (inputRight x)
  setBit v m.coin coin

/-- ShiftRead: the window of `{high, low}` that starts `offset` bits from the top (R153). -/
def shiftWindow (high low : Byte) (offset : BitVec 3) : Byte :=
  ((high ++ low : BitVec 16) >>> (8 - offset.toNat)).setWidth 8

/-- The eight pixels of a video byte, bit 7 first (R231). -/
def byteLanes (on off : Pixel) (b : Byte) : List Pixel :=
  (List.range 8).map (fun j => if b.getLsbD (7 - j) then on else off)

/-- The frame buffer VideoConvert writes: byte i of video RAM gives pixels 8·i to 8·i + 7. R231's index
y·256 + (i mod 32)·8 + j with y = i div 32 is 8·i + j, so the bytes in order give the pixels in order. -/
def videoFrame (on off : Pixel) (mem : Nat → Byte) : List Pixel :=
  (List.range 7168).flatMap (fun i => byteLanes on off (mem (0x2400 + i)))

end Sys2Proof.Machine
end

