-- ==== Sys2Proof/Machine/Flags.lean ====
section
/-! DEFINITION. The edge detectors and the flags: the sound latches' edges (spec/43_sound_trigger.md R172), CREDIT_PREV
(spec/41_port_io.md R122), MID_FIRED and END_FIRED (spec/44_tick_scheduler.md R196, R197). -/

namespace Sys2Proof.Machine

/-! ## The sound edge detector (R172, R174) -/

/-- The bits that were 0 and are now 1. -/
def risingBits (old new : Byte) : Byte := new &&& ~~~old

/-- The bits that were 1 and are now 0. -/
def fallingBits (old new : Byte) : Byte := old &&& ~~~new

/-- The command of one bit: PLAY on its cue's rise, looping for UFO alone; STOP on UFO's fall; else nothing. -/
def edgeCommand (cue : Option Cue) (rise fall : Bool) : List Event :=
  match cue with
  | none => []
  | some c => if rise then [.play c (c == .ufo)] else if fall && c == .ufo then [.stop .ufo] else []

/-- SoundWrite's commands, in ascending bit order. -/
def edgeCommands (map : List (Option Cue)) (old new : Byte) : List Event :=
  (List.range 8).flatMap (fun i =>
    edgeCommand (map.getD i none) ((risingBits old new).getLsbD i) ((fallingBits old new).getLsbD i))

/-! ## The credit edge (R122) -/

/-- The coin cue, on a credit bit that reads 1 where the last device-1 read saw 0. -/
def creditCommands (previous credit : Bool) : List Event :=
  if credit && !previous then [.play .coin false] else []

/-! ## The frame-sync thresholds -/

/-- MidCheck (R196). -/
def midCheck (p : Params) (s : State) : State :=
  if s.midFired = false ∧ p.midThreshold ≤ s.cycles
  then { s.assertInterrupt p.midVector with midFired := true } else s

/-- VideoConvert (spec/45_video_converter.md R231). -/
def videoConvert (p : Params) (s : State) : State :=
  { s with fb := videoFrame p.pixelOn p.pixelOff s.memByte }.emit [.frame]

/-- EndCheck: the assertion, then the conversion (R197). -/
def endCheck (p : Params) (s : State) : State :=
  if s.endFired = false ∧ p.cyclesPerTick ≤ s.cycles
  then videoConvert p { s.assertInterrupt p.endVector with endFired := true } else s

end Sys2Proof.Machine
end

