-- ==== Sys2Proof/Machine/BusMemory.lean ====
section
/-! DEFINITION. The memory transactions (spec/40_memory_ops.md R100 to R108). Each reads its region from the address
decoder; an address outside its row's region is no legal word of the row (R93). -/

namespace Sys2Proof.Machine

/-- MEMRD.ROM (R100). -/
def execMemrdRom (a : Addr) (s : State) : Host.Outcome State Fault Refusal :=
  match decodeAddr a with
  | .rom i => acceptIf s.AcceptsBus (s.respond (.byte (s.memByte i)))
  | .ram _ | .mirror _ | .oob => .refused .reservedEncoding

/-- MEMRD.RAM (R101). -/
def execMemrdRam (a : Addr) (s : State) : Host.Outcome State Fault Refusal :=
  match decodeAddr a with
  | .ram i => acceptIf s.AcceptsBus (s.respond (.byte (s.memByte i)))
  | .rom _ | .mirror _ | .oob => .refused .reservedEncoding

/-- MEMRD.MIRROR (R102): the index is the address less 0x2000. -/
def execMemrdMirror (a : Addr) (s : State) : Host.Outcome State Fault Refusal :=
  match decodeAddr a with
  | .mirror i => acceptIf s.AcceptsBus (s.respond (.byte (s.memByte i)))
  | .rom _ | .ram _ | .oob => .refused .reservedEncoding

/-- MEMRD.OOB (R103): reads 0x00 and emits a DIAG. -/
def execMemrdOob (a : Addr) (s : State) : Host.Outcome State Fault Refusal :=
  match decodeAddr a with
  | .oob => acceptIf s.AcceptsBus ((s.emit [.diag .rdOob a]).respond (.byte 0x00))
  | .rom _ | .ram _ | .mirror _ => .refused .reservedEncoding

/-- MEMWR.ROM (R104): dropped, with a DIAG, whatever the value. -/
def execMemwrRom (a : Addr) (_v : Byte) (s : State) : Host.Outcome State Fault Refusal :=
  match decodeAddr a with
  | .rom _ => acceptIf s.AcceptsBus ((s.emit [.diag .wrRom a]).respond .noData)
  | .ram _ | .mirror _ | .oob => .refused .reservedEncoding

/-- MEMWR.RAM (R105). -/
def execMemwrRam (a : Addr) (v : Byte) (s : State) : Host.Outcome State Fault Refusal :=
  match decodeAddr a with
  | .ram i => acceptIf s.AcceptsBus ((s.writeMem i v).respond .noData)
  | .rom _ | .mirror _ | .oob => .refused .reservedEncoding

/-- MEMWR.MIRROR (R106): the index is the address less 0x2000. -/
def execMemwrMirror (a : Addr) (v : Byte) (s : State) : Host.Outcome State Fault Refusal :=
  match decodeAddr a with
  | .mirror i => acceptIf s.AcceptsBus ((s.writeMem i v).respond .noData)
  | .rom _ | .ram _ | .oob => .refused .reservedEncoding

/-- MEMWR.OOB (R107): dropped, with a DIAG; nothing wraps. -/
def execMemwrOob (a : Addr) (_v : Byte) (s : State) : Host.Outcome State Fault Refusal :=
  match decodeAddr a with
  | .oob => acceptIf s.AcceptsBus ((s.emit [.diag .wrOob a]).respond .noData)
  | .rom _ | .ram _ | .mirror _ => .refused .reservedEncoding

end Sys2Proof.Machine
end

