-- ==== Sys2Proof/Machine/Control.lean ====
section
/-! DEFINITION. Machine control (spec/46_control.md R250 to R257): SETUP, SHUTDOWN, PAUSE, FBRD. -/

namespace Sys2Proof.Machine

/-! ## SETUP -/

/-- A SetupError for ROM images, by its status byte (spec/60_exceptions.md R271): 0x10 + i for image i missing, 0x20 + i
for image i not 2048 bytes long. Images are checked in index order from `i`, so the first bad one names the error. -/
def romError (i : Nat) : List (Option (List Byte)) → Option Byte
  | [] => none
  | none :: _ => some (0x10#8 + BitVec.ofNat 8 i)
  | some image :: rest =>
    if image.length = 2048 then romError (i + 1) rest else some (0x20#8 + BitVec.ofNat 8 i)

/-- The four images in index order. -/
def RomImages.list (r : RomImages) : List (Option (List Byte)) := [r.image0, r.image1, r.image2, r.image3]

/-- ROM as SETUP loads it: image i from 0x0800·i up (R251, spec/10_state.md R24). -/
def romContents (r : RomImages) : Memory :=
  Memory.place 0x0000 (r.image0.getD []) ++ Memory.place 0x0800 (r.image1.getD []) ++
  Memory.place 0x1000 (r.image2.getD []) ++ Memory.place 0x1800 (r.image3.getD [])

/-- The state a successful SETUP brings up (R251): ROM from the images, RAM, the shift register and FB at their unknown
first contents, and PAUSED unchanged. -/
def bringUp (sr : ShiftInit) (ships : BitVec 2) (extra coin : Bool) (s : State) : State :=
  { s with
    mem := romContents s.romPort
    srLow := sr.low
    srHigh := sr.high
    srOffset := sr.offset
    latch3 := 0x00
    latch5 := 0x00
    creditPrev := false
    input := 0
    dipShips := ships
    dipExtra := extra
    dipCoin := coin
    cycles := 0
    midFired := false
    endFired := false
    fb := []
    phase := .idle
    lifecycle := .on }

/-- SETUP with shift register contents `sr` and allocation draw `draw`: a bad image or a failed allocation answers its
status byte and changes nothing of SI-CORE (R251, R252, R253). -/
def setupWith (sr : ShiftInit) (draw : AllocDraw) (ships : BitVec 2) (extra coin : Bool) (s : State) : State :=
  match romError 0 s.romPort.list with
  | some status => s.respond (.byte status)
  | none =>
    let drawn := { s with allocDraws := s.allocDraws + 1 }
    match draw with
    | .memoryFails => drawn.respond (.byte 0x30)
    | .displayFails => drawn.respond (.byte 0x31)
    | .ok => (bringUp sr ships extra coin drawn).respond (.byte 0x00)

/-- SETUP (R251). -/
def execSetup (ships : BitVec 2) (extra coin : Bool) (s : State) : Host.Outcome State Fault Refusal :=
  let n := s.allocDraws + 1
  acceptIf s.AcceptsSetup (setupWith (Config.srInit n) (Config.allocDraw n) ships extra coin s)

/-! ## SHUTDOWN, PAUSE, FBRD -/

/-- What SHUTDOWN leaves (R254): OFF, and every element of R20 but PHASE, LIFECYCLE and PAUSED gone, which the model
writes as at power-on. The trace and the model's own fields stay. -/
def tearDown (s : State) : State :=
  { State.reset with
    phase := s.phase
    paused := s.paused
    trace := s.trace
    answer := s.answer
    requests := s.requests
    romPort := s.romPort
    allocDraws := s.allocDraws }

/-- SHUTDOWN (R254). -/
def execShutdown (s : State) : Host.Outcome State Fault Refusal :=
  acceptIf s.AcceptsHost ((tearDown s).respond .noData)

/-- PAUSE (R255): sets the flag, and does not toggle it. -/
def execPause (p : Bool) (s : State) : Host.Outcome State Fault Refusal :=
  acceptIf s.AcceptsPause ({ s with paused := p }.respond .noData)

/-- FBRD (R256); an index from 0xE000 up is a reserved encoding (spec/30_encoding.md R86). -/
def execFbrd (p : BitVec 16) (s : State) : Host.Outcome State Fault Refusal :=
  if p.toNat < 0xE000 then acceptIf s.AcceptsHost (s.respond (.pixel (s.fbPixel p.toNat)))
  else .refused .reservedEncoding

end Sys2Proof.Machine
end

