-- ==== Sys2Proof/Machine/EventRows.lean ====
section
/-! DEFINITION. The rows of format EVT32 (spec/30_encoding.md R90). SI-CORE emits these words and never accepts one, so
no transaction decodes to one of these instructions. The effect the spec gives an event is `emit` (spec/00_scope.md
R11, R12): it is appended to the event trace, and nothing else changes (notes/assumptions/6.md). -/

namespace Sys2Proof.Machine

/-- EVT.STEP (R194). -/
def execEvtStep (s : State) : Host.Outcome State Fault Refusal := .next (s.emit [.step])

/-- EVT.IRQ (R201). -/
def execEvtIrq (v : Byte) (s : State) : Host.Outcome State Fault Refusal := .next (s.assertInterrupt v)

/-- EVT.PLAY (R172). -/
def execEvtPlay (cue : Cue) (loop : Bool) (s : State) : Host.Outcome State Fault Refusal :=
  .next (s.emit [.play cue loop])

/-- EVT.STOP (R172). -/
def execEvtStop (cue : Cue) (s : State) : Host.Outcome State Fault Refusal := .next (s.emit [.stop cue])

/-- EVT.FRAME (R231). -/
def execEvtFrame (s : State) : Host.Outcome State Fault Refusal := .next (s.emit [.frame])

/-- EVT.TICKDONE (R199). -/
def execEvtTickdone (s : State) : Host.Outcome State Fault Refusal := .next (s.emit [.tickdone])

/-- EVT.DIAG (R272). -/
def execEvtDiag (code : DiagCode) (loc : Addr) (s : State) : Host.Outcome State Fault Refusal :=
  .next (s.emit [.diag code loc])

/-- The instruction an emitted event stands for, so that `encode` gives its event word (R90). -/
def Event.row : Event → Instr
  | .step => .evtStep
  | .irq v => .evtIrq v
  | .play cue loop => .evtPlay cue loop
  | .stop cue => .evtStop cue
  | .frame => .evtFrame
  | .tickdone => .evtTickdone
  | .diag code loc => .evtDiag code loc

/-- The 32-bit word an event goes out as (R90). -/
def Event.word (e : Event) : Word := encode e.row

end Sys2Proof.Machine
end

