-- ==== Sys2Proof/Machine/PortIo.lean ====
section
/-! DEFINITION. The device transactions (spec/41_port_io.md R120 to R131), with the shift register
(spec/42_shift_register.md) and the sound trigger (spec/43_sound_trigger.md) they reach. A meaning that depends on a
parameter is its `…With` form at `Config.params`. -/

namespace Sys2Proof.Machine

/-- IN0 at parameters `p` (R121). -/
def in0With (p : Params) (s : State) : State := s.respond (.byte p.port0Value)

/-- IN0 (R121). -/
def execIn0 (s : State) : Host.Outcome State Fault Refusal :=
  acceptIf s.AcceptsBus (in0With Config.params s)

/-- IN1 at parameters `p`: the word, the coin cue on a credit edge, and CREDIT_PREV (R122). -/
def in1With (p : Params) (s : State) : State :=
  ({ s with creditPrev := inputCredit s.input }.emit
    (creditCommands s.creditPrev (inputCredit s.input))).respond (.byte (controlsWord p.p1Map s.input))

/-- IN1 (R122). -/
def execIn1 (s : State) : Host.Outcome State Fault Refusal :=
  acceptIf s.AcceptsBus (in1With Config.params s)

/-- IN2 at parameters `p` (R123). -/
def in2With (p : Params) (s : State) : State :=
  s.respond (.byte (dipWord p.p2Map s.dipShips s.dipExtra s.dipCoin s.input))

/-- IN2 (R123). -/
def execIn2 (s : State) : Host.Outcome State Fault Refusal :=
  acceptIf s.AcceptsBus (in2With Config.params s)

/-- IN3: the shift register's window (R124, R153). -/
def execIn3 (s : State) : Host.Outcome State Fault Refusal :=
  acceptIf s.AcceptsBus (s.respond (.byte (shiftWindow s.srHigh s.srLow s.srOffset)))

/-- IN.UNMAPPED: devices 4 to 255 read 0x00 (R125). -/
def execInUnmapped (n : Device) (s : State) : Host.Outcome State Fault Refusal :=
  if 4 ≤ n.toNat then acceptIf s.AcceptsBus (s.respond (.byte 0x00)) else .refused .reservedEncoding

/-- OUT2: ShiftSetOffset (R127, R151). -/
def execOut2 (v : Byte) (s : State) : Host.Outcome State Fault Refusal :=
  acceptIf s.AcceptsBus ({ s with srOffset := v.setWidth 3 }.respond .noData)

/-- OUT3 at parameters `p`: SoundWrite on LATCH3 (R128, R172). -/
def out3With (p : Params) (v : Byte) (s : State) : State :=
  ({ s with latch3 := v }.emit (edgeCommands p.cueMap3 s.latch3 v)).respond .noData

/-- OUT3 (R128, R172). -/
def execOut3 (v : Byte) (s : State) : Host.Outcome State Fault Refusal :=
  acceptIf s.AcceptsBus (out3With Config.params v s)

/-- OUT4: ShiftIn (R129, R150). -/
def execOut4 (v : Byte) (s : State) : Host.Outcome State Fault Refusal :=
  acceptIf s.AcceptsBus ({ s with srLow := s.srHigh, srHigh := v }.respond .noData)

/-- OUT5 at parameters `p`: SoundWrite on LATCH5 (R130, R173). -/
def out5With (p : Params) (v : Byte) (s : State) : State :=
  ({ s with latch5 := v }.emit (edgeCommands p.cueMap5 s.latch5 v)).respond .noData

/-- OUT5 (R130, R173). -/
def execOut5 (v : Byte) (s : State) : Host.Outcome State Fault Refusal :=
  acceptIf s.AcceptsBus (out5With Config.params v s)

/-- OUT.UNMAPPED: a write to devices 0, 1 and 6 to 255 is ignored (R131). -/
def execOutUnmapped (n : Device) (_v : Byte) (s : State) : Host.Outcome State Fault Refusal :=
  if n.toNat < 2 ∨ 6 ≤ n.toNat then acceptIf s.AcceptsBus (s.respond .noData)
  else .refused .reservedEncoding

end Sys2Proof.Machine
end

