-- ==== Sys2Proof/Machine/Scheduler.lean ====
section
/-! DEFINITION. The tick loop (spec/44_tick_scheduler.md R190 to R207): TICK and STEPDONE. -/

namespace Sys2Proof.Machine

/-- TickEnd: the overshoot is carried, and `tick` returns (R199). -/
def tickEnd (p : Params) (s : State) : State :=
  { s with cycles := s.cycles - p.cyclesPerTick, phase := .idle }.emit [.tickdone]

/-- LoopTest: one more step while the count is not over the budget, else the tick's end (R194). -/
def loopTest (p : Params) (s : State) : State :=
  if s.cycles ≤ p.cyclesPerTick then { s with phase := .stepWait }.emit [.step] else tickEnd p s

/-- TICK at parameters `p`: nothing but TICKDONE while paused (R192), else the tick's start (R191, R193). -/
def tickWith (p : Params) (snapshot : BitVec 7) (s : State) : State :=
  (if s.paused then s.emit [.tickdone]
   else loopTest p { s with input := snapshot, midFired := false, endFired := false }).respond .noData

/-- TICK (R191). -/
def execTick (snapshot : BitVec 7) (s : State) : Host.Outcome State Fault Refusal :=
  acceptIf s.AcceptsHost (tickWith Config.params snapshot s)

/-- STEPDONE at parameters `p`: accumulate, mid check, end check, loop test (R195, R198). -/
def stepdoneWith (p : Params) (c : BitVec 24) (s : State) : State :=
  (loopTest p (endCheck p (midCheck p { s with cycles := s.cycles + c.toNat }))).respond .noData

/-- STEPDONE (R195). -/
def execStepdone (c : BitVec 24) (s : State) : Host.Outcome State Fault Refusal :=
  acceptIf s.AcceptsStepdone (stepdoneWith Config.params c s)

end Sys2Proof.Machine
end

