-- ==== Sys2Proof/Machine/Dispatch.lean ====
section
/-! DEFINITION. Which meaning each instruction has. -/

namespace Sys2Proof.Machine

def exec (i : Instr) (s : State) : Host.Outcome State Fault Refusal :=
  match i with
  -- spec/40_memory_ops.md
  | .memrdRom a => Sys2Proof.Machine.execMemrdRom a s
  | .memrdRam a => Sys2Proof.Machine.execMemrdRam a s
  | .memrdMirror a => Sys2Proof.Machine.execMemrdMirror a s
  | .memrdOob a => Sys2Proof.Machine.execMemrdOob a s
  | .memwrRom a v => Sys2Proof.Machine.execMemwrRom a v s
  | .memwrRam a v => Sys2Proof.Machine.execMemwrRam a v s
  | .memwrMirror a v => Sys2Proof.Machine.execMemwrMirror a v s
  | .memwrOob a v => Sys2Proof.Machine.execMemwrOob a v s
  -- spec/41_port_io.md
  | .in0 => Sys2Proof.Machine.execIn0 s
  | .in1 => Sys2Proof.Machine.execIn1 s
  | .in2 => Sys2Proof.Machine.execIn2 s
  | .in3 => Sys2Proof.Machine.execIn3 s
  | .inUnmapped n => Sys2Proof.Machine.execInUnmapped n s
  | .out2 v => Sys2Proof.Machine.execOut2 v s
  | .out3 v => Sys2Proof.Machine.execOut3 v s
  | .out4 v => Sys2Proof.Machine.execOut4 v s
  | .out5 v => Sys2Proof.Machine.execOut5 v s
  | .outUnmapped n v => Sys2Proof.Machine.execOutUnmapped n v s
  -- spec/44_tick_scheduler.md and spec/46_control.md
  | .tick snapshot => Sys2Proof.Machine.execTick snapshot s
  | .pause p => Sys2Proof.Machine.execPause p s
  | .setup ships extra coin => Sys2Proof.Machine.execSetup ships extra coin s
  | .shutdown => Sys2Proof.Machine.execShutdown s
  | .fbrd p => Sys2Proof.Machine.execFbrd p s
  | .stepdone c => Sys2Proof.Machine.execStepdone c s
  -- spec/30_encoding.md R90
  | .evtStep => Sys2Proof.Machine.execEvtStep s
  | .evtIrq v => Sys2Proof.Machine.execEvtIrq v s
  | .evtPlay cue loop => Sys2Proof.Machine.execEvtPlay cue loop s
  | .evtStop cue => Sys2Proof.Machine.execEvtStop cue s
  | .evtFrame => Sys2Proof.Machine.execEvtFrame s
  | .evtTickdone => Sys2Proof.Machine.execEvtTickdone s
  | .evtDiag code loc => Sys2Proof.Machine.execEvtDiag code loc s

end Sys2Proof.Machine
end

