-- ==== Sys2Proof/Machine/Requests.lean ====
section
/-! DEFINITION. How a transaction reaches SI-CORE. It fetches nothing and has no program counter (spec/10_state.md R21):
the host and the CPU core present one transaction at a time (spec/00_scope.md R6), and `State.requests` lists what they
will present (notes/assumptions/5.md). -/

namespace Sys2Proof.Machine

/-- The next request, and the state in which SI-CORE acts on it: the request taken, its ROM payload at the port. -/
def State.takeRequest (s : State) : Option (Word × State) :=
  match s.requests with
  | [] => none
  | r :: rest => some (r.word, { s with requests := rest, romPort := r.roms })

/-- The word of an instruction whose bits are `w`, the bits from `nbits` up taken as 0 (R80). -/
def tableWord (nbits w : Nat) : Word := BitVec.ofNat 32 (w % 2 ^ nbits)

/-- A state in which it is the caller's turn to present `i`: `s` itself where R88 accepts `i` there, else `s` with the
LIFECYCLE or PHASE that R88 asks for. SI-CORE's callers present a transaction in no other state (R257). -/
def State.turnFor (s : State) : Instr → State
  | .memrdRom _ | .memrdRam _ | .memrdMirror _ | .memrdOob _ => { s with lifecycle := .on }
  | .memwrRom _ _ | .memwrRam _ _ | .memwrMirror _ _ | .memwrOob _ _ => { s with lifecycle := .on }
  | .in0 | .in1 | .in2 | .in3 | .inUnmapped _ => { s with lifecycle := .on }
  | .out2 _ | .out3 _ | .out4 _ | .out5 _ | .outUnmapped _ _ => { s with lifecycle := .on }
  | .tick _ | .shutdown | .fbrd _ => { s with lifecycle := .on, phase := .idle }
  | .pause _ => { s with phase := .idle }
  | .setup _ _ _ => { s with lifecycle := .off }
  | .stepdone _ => { s with lifecycle := .on, phase := .stepWait }
  | .evtStep | .evtIrq _ | .evtPlay _ _ | .evtStop _ | .evtFrame | .evtTickdone | .evtDiag _ _ => s

/-- `s` with a word presented next, on its caller's turn; the ROM payload beside it is the one at the port. -/
def State.present (s : State) (word : Word) : State :=
  let turn := match decode word with
    | some i => s.turnFor i
    | none => s
  { turn with requests := { word := word, roms := s.romPort } :: s.requests }

end Sys2Proof.Machine
end

