-- ==== Sys2Proof/Machine/Step.lean ====
section
/-! DEFINITION. One step of SI-CORE: it takes the next transaction and acts on it. -/

namespace Sys2Proof.Machine

/-- One transaction: refused where its word is illegal (spec/30_encoding.md R86), else its instruction's meaning. With
no transaction presented SI-CORE waits: it has no step of its own (spec/44_tick_scheduler.md R200). -/
def step (s : State) : Host.Outcome State Fault Refusal :=
  match s.takeRequest with
  | none => .next s
  | some (word, taken) =>
    match decode word with
    | none => .refused .reservedEncoding
    | some i => exec i taken

/-- `s` with the table's word presented as the very next transaction (notes/assumptions/5.md). -/
def State.withFetchWord (s : State) (nbits w : Nat) : State := s.present (tableWord nbits w)

end Sys2Proof.Machine
end

