-- ==== Sys2Proof/Safety.lean ====
section
/-! DEFINITION. The terms the claims are stated in: the acceptance table, runs, frames, the invariant, and the counts
that the sound and scheduler properties speak of. -/

namespace Sys2Proof.Machine

/-! ## Kinds of transaction -/

/-- MEMRD, MEMWR, IORD and IOWR: the transactions of the CPU bus (spec/00_scope.md R7). -/
def isBus : Instr → Bool
  | .memrdRom _ | .memrdRam _ | .memrdMirror _ | .memrdOob _ => true
  | .memwrRom _ _ | .memwrRam _ _ | .memwrMirror _ _ | .memwrOob _ _ => true
  | .in0 | .in1 | .in2 | .in3 | .inUnmapped _ => true
  | .out2 _ | .out3 _ | .out4 _ | .out5 _ | .outUnmapped _ _ => true
  | .tick _ | .pause _ | .setup _ _ _ | .shutdown | .fbrd _ | .stepdone _ => false
  | .evtStep | .evtIrq _ | .evtPlay _ _ | .evtStop _ | .evtFrame | .evtTickdone | .evtDiag _ _ => false

/-- What the CPU core sends within a tick: bus transactions and STEPDONE (R6). -/
def isCpu : Instr → Bool
  | .stepdone _ => true
  | i => isBus i

/-- The bus transactions, TICK and STEPDONE: what a run of ticks between SETUP and SHUTDOWN is made of. -/
def isTickWork : Instr → Bool
  | .tick _ => true
  | i => isCpu i

/-! ## The acceptance table (spec/30_encoding.md R88) -/

/-- R88's table, a column for each of OFF; ON and IDLE; ON and STEP_WAIT. The table does not speak of the event rows, and
no claim rests on what stands for them here. -/
def accepted (i : Instr) (lifecycle : Lifecycle) (phase : Phase) : Bool :=
  let row (off onIdle onStepWait : Bool) : Bool :=
    match lifecycle, phase with
    | .off, _ => off
    | .on, .idle => onIdle
    | .on, .stepWait => onStepWait
  match i with
  | .memrdRom _ | .memrdRam _ | .memrdMirror _ | .memrdOob _ => row false true true
  | .memwrRom _ _ | .memwrRam _ _ | .memwrMirror _ _ | .memwrOob _ _ => row false true true
  | .in0 | .in1 | .in2 | .in3 | .inUnmapped _ => row false true true
  | .out2 _ | .out3 _ | .out4 _ | .out5 _ | .outUnmapped _ _ => row false true true
  | .stepdone _ => row false false true
  | .tick _ => row false true false
  | .pause _ => row true true false
  | .setup _ _ _ => row true false false
  | .shutdown => row false true false
  | .fbrd _ => row false true false
  | .evtStep | .evtIrq _ | .evtPlay _ _ | .evtStop _ | .evtFrame | .evtTickdone | .evtDiag _ _ =>
    row true true true

/-! ## Runs -/

/-- The transactions of a list, one after another, stopping at the first that is refused (spec/00_scope.md R13). -/
def runInstrs : List Instr → State → Host.Outcome State Fault Refusal
  | [], s => .next s
  | i :: rest, s =>
    match exec i s with
    | .next t => runInstrs rest t
    | .fault r => .fault r
    | .refused r => .refused r

/-- The events `t`'s trace holds beyond `s`'s. -/
def newEvents (s t : State) : List Event := t.trace.drop s.trace.length

/-- A trace without its DIAG events, which a model may leave out of the observation (spec/92_eei_decisions.md D36). -/
def withoutDiag (es : List Event) : List Event :=
  es.filter (fun e => match e with
    | .diag _ _ => false
    | .step | .irq _ | .play _ _ | .stop _ | .frame | .tickdone => true)

/-- The interrupt assertions and the frame notices of a trace. -/
def frameSync (es : List Event) : List Event :=
  es.filter (fun e => match e with
    | .irq _ | .frame => true
    | .step | .play _ _ | .stop _ | .tickdone | .diag _ _ => false)

/-- The backing-store index an instruction stores to, if any: R105's and R106's own expressions. -/
def storeIndex : Instr → Option Nat
  | .memwrRam a _ => some a.toNat
  | .memwrMirror a _ => some (a.toNat - 0x2000)
  | .memrdRom _ | .memrdRam _ | .memrdMirror _ | .memrdOob _ | .memwrRom _ _ | .memwrOob _ _ => none
  | .in0 | .in1 | .in2 | .in3 | .inUnmapped _ => none
  | .out2 _ | .out3 _ | .out4 _ | .out5 _ | .outUnmapped _ _ => none
  | .tick _ | .pause _ | .setup _ _ _ | .shutdown | .fbrd _ | .stepdone _ => none
  | .evtStep | .evtIrq _ | .evtPlay _ _ | .evtStop _ | .evtFrame | .evtTickdone | .evtDiag _ _ => none

/-- An image SETUP accepts: 2048 bytes (R251). -/
def ImageOk (image : Option (List Byte)) : Prop := ∃ bytes, image = some bytes ∧ bytes.length = 2048

/-! ## Frames -/

/-- Every byte of the backing store reads as before. -/
def SameMemory (s t : State) : Prop := ∀ i, t.memByte i = s.memByte i

/-- SR_LOW, SR_HIGH and SR_OFFSET. -/
def SameShift (s t : State) : Prop := t.srLow = s.srLow ∧ t.srHigh = s.srHigh ∧ t.srOffset = s.srOffset

/-- LATCH3 and LATCH5. -/
def SameLatches (s t : State) : Prop := t.latch3 = s.latch3 ∧ t.latch5 = s.latch5

/-- INPUT and the DIP switches. -/
def SameInputs (s t : State) : Prop :=
  t.input = s.input ∧ t.dipShips = s.dipShips ∧ t.dipExtra = s.dipExtra ∧ t.dipCoin = s.dipCoin

/-- CYCLES, MID_FIRED, END_FIRED and PHASE. -/
def SameSchedule (s t : State) : Prop :=
  t.cycles = s.cycles ∧ t.midFired = s.midFired ∧ t.endFired = s.endFired ∧ t.phase = s.phase

/-- LIFECYCLE and PAUSED. -/
def SameLife (s t : State) : Prop := t.lifecycle = s.lifecycle ∧ t.paused = s.paused

/-- Every pixel of the frame buffer reads as before. -/
def SamePixels (s t : State) : Prop := ∀ p, t.fbPixel p = s.fbPixel p

/-- The model's own fields but the answer: what will be presented, the ROM port and the count of draws. -/
def SameInterface (s t : State) : Prop :=
  t.requests = s.requests ∧ t.romPort = s.romPort ∧ t.allocDraws = s.allocDraws

/-! ## The invariant -/

/-- Nothing of R20 exists while OFF but PHASE, LIFECYCLE and PAUSED: the model holds the power-on zeros. -/
def NothingExists (s : State) : Prop :=
  s.mem = [] ∧ s.fb = [] ∧ s.srLow = 0 ∧ s.srHigh = 0 ∧ s.srOffset = 0 ∧ s.latch3 = 0 ∧ s.latch5 = 0 ∧
  s.creditPrev = false ∧ s.input = 0 ∧ s.dipShips = 0 ∧ s.dipExtra = false ∧ s.dipCoin = false ∧
  s.cycles = 0 ∧ s.midFired = false ∧ s.endFired = false ∧ s.phase = .idle

/-- What every step keeps. Three clauses speak of how the model writes a state down, which is the model's choice: the
canonical list of MEM (notes/assumptions/2.md), FB empty until it is converted (notes/assumptions/11.md), and the zeros
that stand for what does not exist (notes/assumptions/4.md). -/
structure State.Inv (s : State) : Prop where
  /-- MEM's list is in the model's canonical form (notes/assumptions/2.md) and inside the 16 KiB store (R23). -/
  memory : s.mem.wf
  /-- While ON, every ROM byte has been loaded (R24). -/
  romLoaded : s.lifecycle = .on → ∀ i < 0x2000, (s.mem.read? i).isSome = true
  /-- FB has not been converted yet, which the model writes as the empty list (notes/assumptions/11.md), or holds all
  256 × 224 pixels (R36). -/
  pixels : s.fb.length = 0 ∨ s.fb.length = 57344
  /-- A step is asked for only within the budget (R194). -/
  budget : s.phase = .stepWait → s.cycles ≤ Config.params.cyclesPerTick
  /-- Within a tick the mid-frame interrupt has fired only at or past its threshold (R196). -/
  midReached : s.phase = .stepWait → s.midFired = true → Config.params.midThreshold ≤ s.cycles
  /-- Within a tick the end-frame interrupt has fired only at the budget (R197). -/
  endReached : s.phase = .stepWait → s.endFired = true → Config.params.cyclesPerTick ≤ s.cycles
  /-- The end-frame interrupt never comes before the mid-frame one (R198). -/
  midFirst : s.endFired = true → s.midFired = true
  /-- While OFF nothing else exists (R20): the model holds its zeros there (notes/assumptions/4.md). -/
  nothing : s.lifecycle = .off → NothingExists s

/-! ## Sound edges (spec/43_sound_trigger.md R175) -/

/-- A PLAY of the cue, with either loop flag. -/
def isPlayOf (c : Cue) : Event → Bool
  | .play c' _ => c' == c
  | .step | .irq _ | .stop _ | .frame | .tickdone | .diag _ _ => false

/-- A STOP, of any cue. -/
def isStop : Event → Bool
  | .stop _ => true
  | .step | .irq _ | .play _ _ | .frame | .tickdone | .diag _ _ => false

/-- How often bit `i` goes from 0 to 1 along a latch's values. -/
def risingEdges (i : Nat) : Byte → List Byte → Nat
  | _, [] => 0
  | old, v :: rest => (if !old.getLsbD i && v.getLsbD i then 1 else 0) + risingEdges i v rest

/-- How often bit `i` goes from 1 to 0 along a latch's values. -/
def fallingEdges (i : Nat) : Byte → List Byte → Nat
  | _, [] => 0
  | old, v :: rest => (if old.getLsbD i && !v.getLsbD i then 1 else 0) + fallingEdges i v rest

/-! ## Cycle accounting (spec/44_tick_scheduler.md R204) -/

/-- S_N: the sum of the STEPDONE costs of a run. -/
def totalCost : List Instr → Nat
  | [] => 0
  | .stepdone c :: rest => c.toNat + totalCost rest
  | _ :: rest => totalCost rest

end Sys2Proof.Machine
end

