-- ==== Sys2Proof/Certificates/Slice0/Obligations.lean ====
section
/-! DEFINITION. The statements for the provers. Each docstring names the rule of spec/ it formalises, or says that it
rests on a choice of the model's. -/

open Sys2Proof Sys2Proof.Machine

/-! ## Encoding -/

/-- A word of each family, written out from spec/30_encoding.md and spec/95_test_vectors.md, decodes to its
instruction, and a few illegal words to none. -/
def Obligations.SampleWordsDecode : Prop :=
  decode 0x00000100 = some (.memrdRom 0x0100) ∧ decode 0x00002400 = some (.memrdRam 0x2400) ∧
  decode 0x00005FFF = some (.memrdMirror 0x5FFF) ∧ decode 0x00006000 = some (.memrdOob 0x6000) ∧
  decode 0x105A4400 = some (.memwrMirror 0x4400 0x5A) ∧ decode 0x20000003 = some .in3 ∧
  decode 0x30FF0004 = some (.out4 0xFF) ∧ decode 0x4000007F = some (.tick 0x7F) ∧
  decode 0x6000000F = some (.setup 3 true true) ∧ decode 0x8000DFFF = some (.fbrd 57343) ∧
  decode 0x90FFFFFF = some (.stepdone 0xFFFFFF) ∧ decode 0x8000E000 = none ∧ decode 0x0A000000 = none

/-- R93: the pattern of every row, in the fields of R80, and the operands that R82 gives it. -/
def Obligations.RowPatterns : Prop :=
  ∀ w : Word, fieldRsv w = 0 →
    let op := (fieldOp w).toNat
    let d := fieldD w
    let a := fieldA w
    (op = 0 → d = 0 → a.toNat < 0x2000 → decode w = some (.memrdRom a)) ∧
    (op = 0 → d = 0 → 0x2000 ≤ a.toNat → a.toNat < 0x4000 → decode w = some (.memrdRam a)) ∧
    (op = 0 → d = 0 → 0x4000 ≤ a.toNat → a.toNat < 0x6000 → decode w = some (.memrdMirror a)) ∧
    (op = 0 → d = 0 → 0x6000 ≤ a.toNat → decode w = some (.memrdOob a)) ∧
    (op = 1 → a.toNat < 0x2000 → decode w = some (.memwrRom a d)) ∧
    (op = 1 → 0x2000 ≤ a.toNat → a.toNat < 0x4000 → decode w = some (.memwrRam a d)) ∧
    (op = 1 → 0x4000 ≤ a.toNat → a.toNat < 0x6000 → decode w = some (.memwrMirror a d)) ∧
    (op = 1 → 0x6000 ≤ a.toNat → decode w = some (.memwrOob a d)) ∧
    (op = 2 → d = 0 → a = 0 → decode w = some .in0) ∧ (op = 2 → d = 0 → a = 1 → decode w = some .in1) ∧
    (op = 2 → d = 0 → a = 2 → decode w = some .in2) ∧ (op = 2 → d = 0 → a = 3 → decode w = some .in3) ∧
    (op = 2 → d = 0 → 4 ≤ a.toNat → a.toNat < 0x100 → decode w = some (.inUnmapped (a.setWidth 8))) ∧
    (op = 3 → a = 2 → decode w = some (.out2 d)) ∧ (op = 3 → a = 3 → decode w = some (.out3 d)) ∧
    (op = 3 → a = 4 → decode w = some (.out4 d)) ∧ (op = 3 → a = 5 → decode w = some (.out5 d)) ∧
    (op = 3 → (a.toNat < 2 ∨ 6 ≤ a.toNat) → a.toNat < 0x100 →
      decode w = some (.outUnmapped (a.setWidth 8) d)) ∧
    (op = 4 → d = 0 → a.toNat < 0x80 → decode w = some (.tick (a.setWidth 7))) ∧
    (op = 5 → d = 0 → a.toNat < 2 → decode w = some (.pause (a.getLsbD 0))) ∧
    (op = 6 → d = 0 → a.toNat < 0x10 → decode w = some (.setup (a.setWidth 2) (a.getLsbD 2) (a.getLsbD 3))) ∧
    (op = 7 → d = 0 → a = 0 → decode w = some .shutdown) ∧
    (op = 8 → d = 0 → a.toNat < 0xE000 → decode w = some (.fbrd a)) ∧
    (op = 9 → decode w = some (.stepdone (w.setWidth 24)))

/-- Encoding drops no bit: every well-formed transaction, at every operand value, is read back from its word. -/
def Obligations.TransactionRoundTrip : Prop :=
  ∀ i : Instr, i.wellFormed = true → i.isEvent = false → decode (encode i) = some i

/-- R93: the rows cover every legal word, and no two overlap. What the decoder reads from a word is a well-formed
transaction, and that word is the only one of it. -/
def Obligations.DecodedWordReencodes : Prop :=
  ∀ (w : Word) (i : Instr), decode w = some i → i.wellFormed = true ∧ i.isEvent = false ∧ encode i = w

/-- The event channel (R90): every event is read back from its word, and a word the trace decoder reads is that event's.
The second clause rests on the words that the trace decoder refuses, which is the model's reading of R90, R170 and R272
(DEDUCED, notes/assumptions/12.md). -/
def Obligations.EventRoundTrip : Prop :=
  (∀ i : Instr, i.isEvent = true → decodeEvent (encode i) = some i) ∧
  (∀ (w : Word) (i : Instr), decodeEvent w = some i → i.isEvent = true ∧ encode i = w)

/-- R90: the word each event goes out as, with the cue ids of R170 and the diagnostic codes of R272. -/
def Obligations.EventWords : Prop :=
  Event.step.word = 0x00000000 ∧ Event.frame.word = 0x40000000 ∧ Event.tickdone.word = 0x50000000 ∧
  (∀ v : Byte, (Event.irq v).word.toNat = 0x10000000 + v.toNat * 0x10000) ∧
  (∀ (c : Cue) (loop : Bool),
    (Event.play c loop).word.toNat = 0x20000000 + (if loop then 0x10 else 0) + c.id.toNat) ∧
  (∀ c : Cue, (Event.stop c).word.toNat = 0x30000000 + c.id.toNat) ∧
  (∀ (c : DiagCode) (a : Addr), (Event.diag c a).word.toNat = 0x60000000 + c.code.toNat * 0x10000 + a.toNat) ∧
  Cue.ufo.id.toNat = 0 ∧ Cue.ufoHit.id.toNat = 1 ∧ Cue.fire.id.toNat = 2 ∧ Cue.explosion.id.toNat = 3 ∧
  Cue.invaderDie.id.toNat = 4 ∧ Cue.fleet1.id.toNat = 5 ∧ Cue.fleet2.id.toNat = 6 ∧ Cue.fleet3.id.toNat = 7 ∧
  Cue.fleet4.id.toNat = 8 ∧ Cue.coin.id.toNat = 9 ∧
  DiagCode.rdOob.code.toNat = 0x01 ∧ DiagCode.wrOob.code.toNat = 0x02 ∧ DiagCode.wrRom.code.toNat = 0x03

/-- R86: exactly these words are illegal, and a step on one is refused. -/
def Obligations.ReservedWordsRefused : Prop :=
  (∀ w : Word, decode w = none ↔
    0xA ≤ (fieldOp w).toNat ∨ fieldRsv w ≠ 0 ∨
    ((fieldOp w).toNat ∈ [0, 2, 4, 5, 6, 7, 8] ∧ fieldD w ≠ 0) ∨
    ((fieldOp w).toNat ∈ [2, 3] ∧ 0x100 ≤ (fieldA w).toNat) ∨
    ((fieldOp w).toNat = 4 ∧ 0x80 ≤ (fieldA w).toNat) ∨
    ((fieldOp w).toNat = 5 ∧ 2 ≤ (fieldA w).toNat) ∨
    ((fieldOp w).toNat = 6 ∧ 0x10 ≤ (fieldA w).toNat) ∨
    ((fieldOp w).toNat = 7 ∧ fieldA w ≠ 0) ∨
    ((fieldOp w).toNat = 8 ∧ 0xE000 ≤ (fieldA w).toNat)) ∧
  (∀ (s : State) (r : Request) (rest : List Request), s.requests = r :: rest → decode r.word = none →
    step s = .refused .reservedEncoding)

/-! ## The step -/

/-- A step takes the next request and runs the instruction its word decodes to, with the request's ROM payload at the
port. How requests reach SI-CORE is the model's choice (notes/assumptions/5.md). -/
def Obligations.StepRunsTheNextRequest : Prop :=
  ∀ (s : State) (r : Request) (rest : List Request) (i : Instr),
    s.requests = r :: rest → decode r.word = some i →
    step s = exec i { s with requests := rest, romPort := r.roms }

/-- With nothing presented SI-CORE waits and changes nothing: STEP_WAIT has no step of SI-CORE's own (R200), and the
stuttering step is the model's choice (notes/assumptions/5.md). -/
def Obligations.StepWaitsForARequest : Prop :=
  ∀ s : State, s.requests = [] → step s = .next s

/-- R88's acceptance table: a transaction completes where the table accepts it, and is refused with WRONG_STATE where
it does not. The premise on the state rules out OFF in the middle of a tick, which the invariant excludes. -/
def Obligations.AcceptanceTable : Prop :=
  ∀ (i : Instr) (s : State), i.wellFormed = true → i.isEvent = false → (s.lifecycle = .off → s.phase = .idle) →
    (accepted i s.lifecycle s.phase = true → ∃ t, exec i s = .next t) ∧
    (accepted i s.lifecycle s.phase = false → exec i s = .refused .wrongState)

/-- R300: the state at power-on, in which no transaction is accepted but SETUP and PAUSE. -/
def Obligations.PowerOn : Prop :=
  State.reset.lifecycle = .off ∧ State.reset.phase = .idle ∧ State.reset.paused = false ∧
  ∀ (i : Instr) (t : State), i.isEvent = false → exec i State.reset = .next t →
    (∃ x e c, i = .setup x e c) ∨ (∃ p, i = .pause p)

/-! ## Memory -/

/-- R61: the region and the backing-store index of every bus address. -/
def Obligations.AddressDecoder : Prop :=
  ∀ a : Addr,
    (a.toNat < 0x2000 → decodeAddr a = .rom a.toNat) ∧
    (0x2000 ≤ a.toNat → a.toNat < 0x4000 → decodeAddr a = .ram a.toNat) ∧
    (0x4000 ≤ a.toNat → a.toNat < 0x6000 → decodeAddr a = .mirror (a.toNat - 0x2000)) ∧
    (0x6000 ≤ a.toNat → decodeAddr a = .oob)

/-- R100, R101, R102: a read answers the byte at the index the decoder gives, and changes nothing else. -/
def Obligations.MemoryReads : Prop :=
  ∀ (a : Addr) (s : State), s.lifecycle = .on →
    (a.toNat < 0x2000 → exec (.memrdRom a) s = .next { s with answer := .byte (s.memByte a.toNat) }) ∧
    (0x2000 ≤ a.toNat → a.toNat < 0x4000 →
      exec (.memrdRam a) s = .next { s with answer := .byte (s.memByte a.toNat) }) ∧
    (0x4000 ≤ a.toNat → a.toNat < 0x6000 →
      exec (.memrdMirror a) s = .next { s with answer := .byte (s.memByte (a.toNat - 0x2000)) })

/-- R103, R107: out of bounds a read answers 0x00 and a write is dropped; each emits its DIAG and changes nothing
else. -/
def Obligations.OutOfBounds : Prop :=
  ∀ (a : Addr) (v : Byte) (s : State), s.lifecycle = .on → 0x6000 ≤ a.toNat →
    exec (.memrdOob a) s = .next { s with answer := .byte 0x00, trace := s.trace ++ [.diag .rdOob a] } ∧
    exec (.memwrOob a v) s = .next { s with answer := .noData, trace := s.trace ++ [.diag .wrOob a] }

/-- R105, R106, and their frame: a write changes the one byte at the index the decoder gives. -/
def Obligations.MemoryWrites : Prop :=
  ∀ (a : Addr) (v : Byte) (s : State), s.lifecycle = .on →
    (0x2000 ≤ a.toNat → a.toNat < 0x4000 →
      ∃ t, exec (.memwrRam a v) s = .next t ∧ t = { s with mem := t.mem, answer := .noData } ∧
        t.memByte a.toNat = v ∧ ∀ k, k ≠ a.toNat → t.memByte k = s.memByte k) ∧
    (0x4000 ≤ a.toNat → a.toNat < 0x6000 →
      ∃ t, exec (.memwrMirror a v) s = .next t ∧ t = { s with mem := t.mem, answer := .noData } ∧
        t.memByte (a.toNat - 0x2000) = v ∧ ∀ k, k ≠ a.toNat - 0x2000 → t.memByte k = s.memByte k)

/-- R104: a write to ROM is dropped with a DIAG, whatever the value, and a later read gives the ROM byte. -/
def Obligations.RomWriteDropped : Prop :=
  ∀ (a : Addr) (v : Byte) (s : State), s.lifecycle = .on → a.toNat < 0x2000 →
    ∃ t, exec (.memwrRom a v) s = .next t ∧
      t = { s with answer := .noData, trace := s.trace ++ [.diag .wrRom a] } ∧
      exec (.memrdRom a) t = .next { t with answer := .byte (s.memByte a.toNat) }

/-- R62: the mirror is a full alias: a read or a write through it is the read or the write of the address 0x2000
below, outcome for outcome. -/
def Obligations.MirrorAlias : Prop :=
  ∀ (a b : Addr) (v : Byte) (s : State), 0x4000 ≤ a.toNat → a.toNat < 0x6000 → b.toNat + 0x2000 = a.toNat →
    exec (.memrdMirror a) s = exec (.memrdRam b) s ∧ exec (.memwrMirror a v) s = exec (.memwrRam b v) s

/-- R69: a byte reads as the most recent write to it, through the primary or the mirror address, whatever other
transactions of the tick loop come between. -/
def Obligations.LastWriteIsRead : Prop :=
  ∀ (i : Instr) (k : Nat) (v : Byte) (is : List Instr) (s t u : State),
    ((∃ a, i = .memwrRam a v) ∨ (∃ a, i = .memwrMirror a v)) → storeIndex i = some k →
    exec i s = .next t → (∀ j ∈ is, isTickWork j = true ∧ storeIndex j ≠ some k) →
    runInstrs is t = .next u → u.memByte k = v

/-- R24: from ON, no run of transactions changes a ROM byte until SHUTDOWN. -/
def Obligations.RomKeptUntilShutdown : Prop :=
  ∀ (is : List Instr) (s t : State), s.lifecycle = .on → .shutdown ∉ is → runInstrs is s = .next t →
    ∀ k, k < 0x2000 → t.memByte k = s.memByte k

/-- The frame of memory, over every instruction: a byte changes only where the instruction stores to it, or when SETUP
allocates the store or SHUTDOWN destroys it. -/
def Obligations.OnlyStoresChangeMemory : Prop :=
  ∀ (i : Instr) (s t : State) (k : Nat), exec i s = .next t → storeIndex i ≠ some k → i ≠ .shutdown →
    (∀ x e c, i ≠ .setup x e c) → t.memByte k = s.memByte k

/-- R108: a memory transaction emits nothing but a DIAG, and at most one. -/
def Obligations.MemoryTransactionsEmitOnlyDiag : Prop :=
  ∀ (a : Addr) (v : Byte) (i : Instr) (s t : State),
    i ∈ [.memrdRom a, .memrdRam a, .memrdMirror a, .memrdOob a, .memwrRom a v, .memwrRam a v, .memwrMirror a v,
      .memwrOob a v] →
    exec i s = .next t → newEvents s t = [] ∨ ∃ code, newEvents s t = [.diag code a]

/-! ## Devices -/

/-- R121: device 0 answers the constant status word. -/
def Obligations.StatusRead : Prop :=
  ∀ s : State, s.lifecycle = .on → exec .in0 s = .next { s with answer := .byte Config.params.port0Value }

/-- R122: device 1's word at P1_MAP's positions, its unnamed bit 0, the coin cue on a credit edge, and CREDIT_PREV. -/
def Obligations.ControlsRead : Prop :=
  ∀ s : State, s.lifecycle = .on →
    ∃ v : Byte,
      exec .in1 s = .next { s with
        answer := .byte v
        creditPrev := s.input.getLsbD 5
        trace := s.trace ++
          (if s.input.getLsbD 5 = true ∧ s.creditPrev = false then [.play .coin false] else []) } ∧
      v.getLsbD Config.params.p1Map.credit = s.input.getLsbD 5 ∧
      v.getLsbD Config.params.p1Map.start2 = s.input.getLsbD 4 ∧
      v.getLsbD Config.params.p1Map.start1 = s.input.getLsbD 3 ∧
      v.getLsbD Config.params.p1Map.fixed = true ∧
      v.getLsbD Config.params.p1Map.fire = s.input.getLsbD 2 ∧
      v.getLsbD Config.params.p1Map.left = s.input.getLsbD 0 ∧
      v.getLsbD Config.params.p1Map.right = s.input.getLsbD 1 ∧
      ∀ j : Fin 8, j ∉ Config.params.p1Map.bits → v.getLsbD j = false

/-- R67: two reads of device 1 with the same INPUT are idempotent after the first. -/
def Obligations.ControlsReadIdempotent : Prop :=
  ∀ s t : State, exec .in1 s = .next t → exec .in1 t = .next t

/-- R123: device 2's word at P2_MAP's positions; the read has no side effect. -/
def Obligations.DipRead : Prop :=
  ∀ s : State, s.lifecycle = .on →
    ∃ v : Byte,
      exec .in2 s = .next { s with answer := .byte v } ∧
      v.getLsbD Config.params.p2Map.ships = s.dipShips.getLsbD 0 ∧
      v.getLsbD (Config.params.p2Map.ships.val + 1) = s.dipShips.getLsbD 1 ∧
      v.getLsbD Config.params.p2Map.tilt = s.input.getLsbD 6 ∧
      v.getLsbD Config.params.p2Map.extra = s.dipExtra ∧
      v.getLsbD Config.params.p2Map.fire = s.input.getLsbD 2 ∧
      v.getLsbD Config.params.p2Map.left = s.input.getLsbD 0 ∧
      v.getLsbD Config.params.p2Map.right = s.input.getLsbD 1 ∧
      v.getLsbD Config.params.p2Map.coin = s.dipCoin

/-- R153: device 3 answers the window of `{SR_HIGH, SR_LOW}`, as the formula and bit by bit; nothing else changes. -/
def Obligations.ShiftRead : Prop :=
  ∀ s : State, s.lifecycle = .on →
    ∃ v : Byte,
      exec .in3 s = .next { s with answer := .byte v } ∧
      v.toNat = (s.srHigh.toNat * 256 + s.srLow.toNat) / 2 ^ (8 - s.srOffset.toNat) % 256 ∧
      ∀ i, i < 8 → v.getLsbD i = (s.srHigh ++ s.srLow : BitVec 16).getLsbD (8 - s.srOffset.toNat + i)

/-- R150, R151: device 4 shifts a byte in, device 2 sets the offset to its low three bits, and each leaves everything
else. -/
def Obligations.ShiftWrites : Prop :=
  ∀ (v : Byte) (s : State), s.lifecycle = .on →
    exec (.out4 v) s = .next { s with srLow := s.srHigh, srHigh := v, answer := .noData } ∧
    ∃ t, exec (.out2 v) s = .next t ∧ t = { s with srOffset := t.srOffset, answer := .noData } ∧
      t.srOffset.toNat = v.toNat % 8

/-- R152: the offset and the data bytes are independent: set before or after a shift, the offset leaves the same state,
and so the same window at the next read. -/
def Obligations.ShiftAndOffsetCommute : Prop :=
  ∀ (v k : Byte) (s : State), s.lifecycle = .on →
    ∃ t, runInstrs [.out2 k, .out4 v] s = .next t ∧ runInstrs [.out4 v, .out2 k] s = .next t

/-- R155's sprite sequence: two bytes shifted in, an offset set, and the window read, whatever the register held. -/
def Obligations.SpriteShiftSequence : Prop :=
  ∀ (old new k : Byte) (s : State), s.lifecycle = .on →
    ∃ t, runInstrs [.out4 old, .out4 new, .out2 k, .in3] s = .next t ∧
      t.answer = .byte ((new <<< (k.toNat % 8)) ||| (old >>> (8 - k.toNat % 8)))

/-- R125, R131: an unmapped read answers 0x00 and an unmapped write is ignored; neither changes anything or emits
anything. -/
def Obligations.UnmappedDevices : Prop :=
  ∀ (n : Device) (v : Byte) (s : State), s.lifecycle = .on →
    (4 ≤ n.toNat → exec (.inUnmapped n) s = .next { s with answer := .byte 0x00 }) ∧
    (n.toNat < 2 ∨ 6 ≤ n.toNat → exec (.outUnmapped n v) s = .next { s with answer := .noData })

/-- R172, R173: a write to a sound latch stores the byte and emits, in ascending bit order, PLAY for each mapped bit
that rises and STOP for UFO's bit when it falls; nothing else changes. -/
def Obligations.SoundWrites : Prop :=
  let commands (map : List (Option Cue)) (old new : Byte) : List Event :=
    (List.range 8).flatMap (fun i =>
      match map.getD i none with
      | none => []
      | some c =>
        if old.getLsbD i = false ∧ new.getLsbD i = true then [.play c (decide (c = .ufo))]
        else if old.getLsbD i = true ∧ new.getLsbD i = false ∧ c = .ufo then [.stop .ufo] else [])
  ∀ (v : Byte) (s : State), s.lifecycle = .on →
    exec (.out3 v) s = .next { s with
      latch3 := v, trace := s.trace ++ commands Config.params.cueMap3 s.latch3 v, answer := .noData } ∧
    exec (.out5 v) s = .next { s with
      latch5 := v, trace := s.trace ++ commands Config.params.cueMap5 s.latch5 v, answer := .noData }

/-- R67: a repeated identical write to device 2, 3 or 5 is a no-op. -/
def Obligations.RepeatedWritesAreNoOps : Prop :=
  ∀ (v : Byte) (i : Instr) (s t : State), i ∈ [.out2 v, .out3 v, .out5 v] → exec i s = .next t →
    exec i t = .next t

/-- R175: over any sequence of writes to a sound device, a mapped bit's cue is played, with either loop flag, exactly as
often as the bit rises, and every time as R172 and R173 play it; on device 3 a STOP goes out, of any cue, exactly as often
as UFO's bit falls, and every one is UFO's; on device 5 none goes out. -/
def Obligations.CuesPlayOncePerRisingEdge : Prop :=
  (∀ (vs : List Byte) (s t : State), runInstrs (vs.map .out3) s = .next t →
    ∀ (i : Nat) (c : Cue), Config.params.cueMap3[i]? = some (some c) →
      (newEvents s t).countP (isPlayOf c) = risingEdges i s.latch3 vs ∧
      (newEvents s t).count (.play c (decide (c = .ufo))) = risingEdges i s.latch3 vs ∧
      (c = .ufo →
        (newEvents s t).countP isStop = fallingEdges i s.latch3 vs ∧
        (newEvents s t).count (.stop .ufo) = fallingEdges i s.latch3 vs)) ∧
  (∀ (vs : List Byte) (s t : State), runInstrs (vs.map .out5) s = .next t →
    (∀ (i : Nat) (c : Cue), Config.params.cueMap5[i]? = some (some c) →
      (newEvents s t).countP (isPlayOf c) = risingEdges i s.latch5 vs ∧
      (newEvents s t).count (.play c false) = risingEdges i s.latch5 vs) ∧
    (newEvents s t).countP isStop = 0)

/-! ## The tick loop -/

/-- R192: a paused TICK changes no state at all and emits TICKDONE alone. -/
def Obligations.PausedTick : Prop :=
  ∀ (x : BitVec 7) (s : State), s.lifecycle = .on → s.phase = .idle → s.paused = true →
    exec (.tick x) s = .next { s with trace := s.trace ++ [.tickdone], answer := .noData }

/-- R193, R194, R207: an unpaused TICK stores the snapshot, clears both flags and keeps CYCLES; within the budget it
asks for the first step, and over it the tick ends at once and CYCLES drops by the budget. -/
def Obligations.UnpausedTick : Prop :=
  ∀ (x : BitVec 7) (s : State), s.lifecycle = .on → s.phase = .idle → s.paused = false →
    (s.cycles ≤ Config.params.cyclesPerTick →
      exec (.tick x) s = .next { s with
        input := x, midFired := false, endFired := false, phase := .stepWait
        trace := s.trace ++ [.step], answer := .noData }) ∧
    (Config.params.cyclesPerTick < s.cycles →
      exec (.tick x) s = .next { s with
        input := x, midFired := false, endFired := false, phase := .idle
        cycles := s.cycles - Config.params.cyclesPerTick
        trace := s.trace ++ [.tickdone], answer := .noData })

/-- R195 to R199: what one STEPDONE does: the count, the two assertions in order with the frame notice after the
second, the flags, and one more step or the tick's end with the overshoot carried; memory, devices and pause state
stay. That its answer holds no data, the events being in the trace, is the model's choice (notes/assumptions/9.md). -/
def Obligations.StepDone : Prop :=
  ∀ (c : BitVec 24) (s : State), s.lifecycle = .on → s.phase = .stepWait →
    let n := s.cycles + c.toNat
    let B := Config.params.cyclesPerTick
    let mid : Prop := s.midFired = false ∧ Config.params.midThreshold ≤ n
    let fin : Prop := s.endFired = false ∧ B ≤ n
    ∃ t, exec (.stepdone c) s = .next t ∧
      (mid → t.midFired = true) ∧ (¬ mid → t.midFired = s.midFired) ∧
      (fin → t.endFired = true) ∧ (¬ fin → t.endFired = s.endFired) ∧
      (∃ e1 e2 : List Event,
        t.trace = s.trace ++ e1 ++ e2 ++ (if n ≤ B then [.step] else [.tickdone]) ∧
        (mid → e1 = [.irq Config.params.midVector]) ∧ (¬ mid → e1 = []) ∧
        (fin → e2 = [.irq Config.params.endVector, .frame]) ∧ (¬ fin → e2 = [])) ∧
      (n ≤ B → t.cycles = n ∧ t.phase = .stepWait) ∧ (B < n → t.cycles = n - B ∧ t.phase = .idle) ∧
      (¬ fin → SamePixels s t) ∧ t.answer = .noData ∧
      SameMemory s t ∧ SameShift s t ∧ SameLatches s t ∧ t.creditPrev = s.creditPrev ∧ SameInputs s t ∧
      SameLife s t ∧ SameInterface s t

/-- R231, R232: after the STEPDONE that crosses the budget, every pixel is its bit of video RAM, the top bit of a byte
first. -/
def Obligations.ConvertedPixels : Prop :=
  ∀ (c : BitVec 24) (s : State) (x y : Nat), s.lifecycle = .on → s.phase = .stepWait → s.endFired = false →
    Config.params.cyclesPerTick ≤ s.cycles + c.toNat → x < 256 → y < 224 →
    ∃ t, exec (.stepdone c) s = .next t ∧
      t.fbPixel (y * 256 + x) =
        if (s.memByte (0x2400 + 32 * y + x / 8)).getLsbD (7 - x % 8) = true
        then Config.params.pixelOn else Config.params.pixelOff

/-- R203: in a tick that runs at least one step, whatever the CPU core does in it, the mid-frame interrupt, the
end-frame interrupt and the frame refresh come exactly once each, in that order. -/
def Obligations.OneOfEachInterruptPerTick : Prop :=
  ∀ (x : BitVec 7) (is : List Instr) (s t : State), s.lifecycle = .on → s.phase = .idle → s.paused = false →
    s.cycles ≤ Config.params.cyclesPerTick → (∀ i ∈ is, isCpu i = true) →
    runInstrs (.tick x :: is) s = .next t → t.phase = .idle →
    frameSync (newEvents s t) =
      [.irq Config.params.midVector, .irq Config.params.endVector, .frame]

/-- R204: over any run of unpaused ticks, the cycles carried are the cycles executed less the budget of every tick
that ended. -/
def Obligations.CyclesAreAccountedFor : Prop :=
  ∀ (is : List Instr) (s t : State), (∀ i ∈ is, isTickWork i = true) → s.paused = false →
    runInstrs is s = .next t →
    t.cycles + Config.params.cyclesPerTick * (newEvents s t).count .tickdone = s.cycles + totalCost is

/-- R204: between ticks the carry never exceeds the largest step cost, however many ticks have run. -/
def Obligations.CarryNeverDrifts : Prop :=
  ∀ (most : Nat) (is : List Instr) (s t : State), (∀ i ∈ is, isTickWork i = true) →
    (∀ c, .stepdone c ∈ is → c.toNat ≤ most) → s.phase = .idle → s.cycles ≤ most →
    runInstrs is s = .next t → t.phase = .idle → t.cycles ≤ most

/-- R204: the tick that a step ends leaves a carry of at least one cycle and at most that step's cost. -/
def Obligations.CarryOfTheLastStep : Prop :=
  ∀ (c : BitVec 24) (s t : State), s.cycles ≤ Config.params.cyclesPerTick → exec (.stepdone c) s = .next t →
    t.phase = .idle → 0 < t.cycles ∧ t.cycles ≤ c.toNat

/-- R206: a CPU core that reports cost 0 for ever keeps the tick from ever ending; no number of steps is a cap. -/
def Obligations.ZeroCostNeverEnds : Prop :=
  ∀ (n : Nat) (s : State), s.lifecycle = .on → s.phase = .stepWait → s.cycles ≤ Config.params.cyclesPerTick →
    ∃ t, runInstrs (List.replicate n (.stepdone 0)) s = .next t ∧ t.phase = .stepWait ∧ t.cycles = s.cycles ∧
      .tickdone ∉ newEvents s t

/-- R200: the bus transactions of a step count no cycles, assert no interrupt, refresh no frame and end no tick; they
leave the scheduler, the lifecycle, the pause flag, the inputs and every pixel as they were. -/
def Obligations.BusLeavesTheSchedule : Prop :=
  ∀ (i : Instr) (s t : State), isBus i = true → exec i s = .next t →
    SameSchedule s t ∧ SameLife s t ∧ SameInputs s t ∧ SamePixels s t ∧ SameInterface s t ∧
    ∀ e ∈ newEvents s t, (∃ code a, e = .diag code a) ∨ (∃ c loop, e = .play c loop) ∨ (∃ c, e = .stop c)

/-- R275, R201: a transaction that asserts an interrupt is a STEPDONE, the vector is the mid-frame or the end-frame one,
and it asserts at most two. -/
def Obligations.InterruptsOnlyAtStepDone : Prop :=
  ∀ (i : Instr) (s t : State) (v : Byte), i.isEvent = false → exec i s = .next t → .irq v ∈ newEvents s t →
    (∃ c, i = .stepdone c) ∧ (v = Config.params.midVector ∨ v = Config.params.endVector) ∧
    (newEvents s t).countP (fun e => match e with | .irq _ => true | _ => false) ≤ 2

/-! ## Control -/

/-- R255: PAUSE sets the flag to its operand, and does not toggle it. -/
def Obligations.PauseSetsTheFlag : Prop :=
  ∀ (p : Bool) (s : State), s.phase = .idle →
    exec (.pause p) s = .next { s with paused := p, answer := .noData }

/-- R256: FBRD answers one pixel and changes nothing else. -/
def Obligations.FrameBufferRead : Prop :=
  ∀ (p : BitVec 16) (s : State), s.lifecycle = .on → s.phase = .idle → p.toNat < 0xE000 →
    exec (.fbrd p) s = .next { s with answer := .pixel (s.fbPixel p.toNat) }

/-- R251, R253, R301: a SETUP with four good images draws one allocation. If it succeeds the machine comes up with the
images in ROM, each element at its value of R301 and PAUSED unchanged; if it fails nothing of SI-CORE changes and the
status names the buffer. The draw's counter is the model's (notes/assumptions/3.md). -/
def Obligations.SetupBringsUp : Prop :=
  ∀ (x : BitVec 2) (e c : Bool) (s : State), s.lifecycle = .off → (∀ r ∈ s.romPort.list, ImageOk r) →
    ∃ t, exec (.setup x e c) s = .next t ∧ t.allocDraws = s.allocDraws + 1 ∧
      match Config.allocDraw (s.allocDraws + 1) with
      | .memoryFails => t = { s with answer := .byte 0x30, allocDraws := s.allocDraws + 1 }
      | .displayFails => t = { s with answer := .byte 0x31, allocDraws := s.allocDraws + 1 }
      | .ok =>
        t.answer = .byte 0x00 ∧ t.lifecycle = .on ∧ t.phase = .idle ∧ t.paused = s.paused ∧ t.trace = s.trace ∧
        t.requests = s.requests ∧ t.romPort = s.romPort ∧
        (∀ k bytes, s.romPort.list[k]? = some (some bytes) → ∀ j, j < 2048 →
          t.memByte (0x800 * k + j) = bytes.getD j 0) ∧
        (∀ i, 0x2000 ≤ i → i < 0x4000 → t.memByte i = Config.ramInit (s.allocDraws + 1) i) ∧
        t.srLow = (Config.srInit (s.allocDraws + 1)).low ∧ t.srHigh = (Config.srInit (s.allocDraws + 1)).high ∧
        t.srOffset = (Config.srInit (s.allocDraws + 1)).offset ∧
        t.latch3 = 0x00 ∧ t.latch5 = 0x00 ∧ t.creditPrev = false ∧ t.input = 0 ∧
        t.dipShips = x ∧ t.dipExtra = e ∧ t.dipCoin = c ∧
        t.cycles = 0 ∧ t.midFired = false ∧ t.endFired = false ∧
        (∀ p, t.fbPixel p = Config.fbInit (s.allocDraws + 1) p)

/-- R251, R252, R271: a missing image or one not of 2048 bytes ends SETUP with the status that names its kind and the
first bad index, and nothing else changes. -/
def Obligations.SetupNamesTheFirstBadImage : Prop :=
  ∀ (x : BitVec 2) (e c : Bool) (s : State) (k : Nat) (bad : Option (List Byte)), s.lifecycle = .off →
    s.romPort.list[k]? = some bad → ¬ ImageOk bad → (∀ r ∈ s.romPort.list.take k, ImageOk r) →
    exec (.setup x e c) s = .next { s with
      answer := .byte (BitVec.ofNat 8 ((if bad = none then 0x10 else 0x20) + k)) }

/-- R254: SHUTDOWN leaves OFF with nothing else existing, which the model writes as its power-on zeros
(notes/assumptions/4.md); PAUSED is kept and no event is emitted. -/
def Obligations.ShutdownDestroys : Prop :=
  ∀ s : State, s.lifecycle = .on → s.phase = .idle →
    ∃ t, exec .shutdown s = .next t ∧ t.lifecycle = .off ∧ NothingExists t ∧ t.paused = s.paused ∧
      t.trace = s.trace ∧ t.answer = .noData ∧ SameInterface s t

/-- R254: a later SETUP starts from nothing, like the first: whatever contents the shift register comes up with and
however the allocation ends, what a SETUP that succeeds brings up does not depend on anything that was there before. -/
def Obligations.SetupStartsFromNothing : Prop :=
  (∀ (x : BitVec 2) (e c : Bool) (s : State), s.lifecycle = .off →
    ∃ (sr : ShiftInit) (draw : AllocDraw), exec (.setup x e c) s = .next (setupWith sr draw x e c s)) ∧
  (∀ (sr : ShiftInit) (draw : AllocDraw) (x : BitVec 2) (e c : Bool) (s u : State),
    s.lifecycle = .off → u.lifecycle = .off → u.paused = s.paused → u.trace = s.trace → SameInterface s u →
    (setupWith sr draw x e c s).lifecycle = .on → setupWith sr draw x e c u = setupWith sr draw x e c s)

/-- R34, R35, R284: only SETUP and SHUTDOWN change LIFECYCLE, and only PAUSE changes PAUSED. -/
def Obligations.LifecycleAndPauseWriters : Prop :=
  ∀ (i : Instr) (s t : State), exec i s = .next t →
    (t.lifecycle ≠ s.lifecycle → i = .shutdown ∨ ∃ x e c, i = .setup x e c) ∧
    (t.paused ≠ s.paused → ∃ p, i = .pause p)

/-- R30, R31: INPUT changes only at an unpaused TICK, and the DIP switches at none but SETUP, apart from SHUTDOWN's
destruction and SETUP's reset of both. -/
def Obligations.InputsAreFixedWithinATick : Prop :=
  ∀ (i : Instr) (s t : State), exec i s = .next t → i ≠ .shutdown → (∀ x e c, i ≠ .setup x e c) →
    t.dipShips = s.dipShips ∧ t.dipExtra = s.dipExtra ∧ t.dipCoin = s.dipCoin ∧
    (t.input ≠ s.input → s.paused = false ∧ ∃ x, i = .tick x ∧ t.input = x)

/-- R234, R36: outside SETUP and SHUTDOWN the frame buffer changes only in the STEPDONE that crosses the budget. -/
def Obligations.FrameBufferWriters : Prop :=
  ∀ (i : Instr) (s t : State), exec i s = .next t → i ≠ .shutdown → (∀ x e c, i ≠ .setup x e c) →
    ¬ SamePixels s t →
    ∃ c, i = .stepdone c ∧ s.endFired = false ∧ Config.params.cyclesPerTick ≤ s.cycles + c.toNat ∧
      t.endFired = true

/-- R40: the frame buffer shows only through FBRD: a run without one answers, emits and ends in the same way whatever
the frame buffer held, up to the frame buffer itself. -/
def Obligations.FrameBufferShowsOnlyToFbrd : Prop :=
  ∀ (is : List Instr) (f : List Pixel) (s t : State), (∀ p, .fbrd p ∉ is) → runInstrs is s = .next t →
    ∃ g, runInstrs is { s with fb := f } = .next { t with fb := g }

/-! ## Events and the invariant -/

/-- The rows of format EVT32: the event is appended to the trace, by R11's `emit`, and nothing else changes. That an
event row taken as an instruction is that emission is the model's choice (notes/assumptions/6.md). -/
def Obligations.EventRowsEmit : Prop :=
  ∀ (e : Event) (s : State), exec e.row s = .next { s with trace := s.trace ++ [e] }

/-- R12, R276: the trace only grows, and one transaction reports at most one DIAG. -/
def Obligations.TraceOnlyGrows : Prop :=
  ∀ (i : Instr) (s t : State), exec i s = .next t →
    ∃ es, t.trace = s.trace ++ es ∧ es.length ≤ (withoutDiag es).length + 1

/-- Every step keeps the invariant: the store's canonical form, the loaded ROM, the frame buffer's size, the budget, the
fired flags' order, and that nothing exists while OFF. The canonical list (notes/assumptions/2.md), the empty list of an
unconverted frame buffer (notes/assumptions/11.md) and the zeros held while OFF (notes/assumptions/4.md) are the model's
choices of how a state is written down. -/
def Obligations.StepKeepsInv : Prop :=
  ∀ s t : State, s.Inv → step s = .next t → t.Inv

/-- The invariant holds at power-on, of the zeros and empty lists that the model chose for the elements that do not exist
then (notes/assumptions/4.md, and for the lists' forms 2.md and 11.md). -/
def Obligations.PowerOnInv : Prop := State.reset.Inv
end

