-- ==== Sys2Proof/Laws/Config.lean ====
section
/-! SUPPORT. What every choice of the implementation's parameters satisfies (spec/00_scope.md R8). -/

namespace Sys2Proof

theorem testVectors_legal : Params.testVectors.Legal := by decide

namespace Config

/-- The machine's parameters are ones R8 admits. -/
theorem params_legal : params.Legal := by
  unfold params
  split
  · assumption
  · exact testVectors_legal

theorem cyclesPerTick_pos : 0 < params.cyclesPerTick := params_legal.1

theorem midThreshold_pos : 0 < params.midThreshold := params_legal.2.1

theorem midThreshold_le : params.midThreshold ≤ params.cyclesPerTick := params_legal.2.2.1

theorem p1Map_bits_nodup : params.p1Map.bits.Nodup := params_legal.2.2.2.1

theorem p2Map_bits_nodup : params.p2Map.bits.Nodup := params_legal.2.2.2.2.1

theorem cueMap3_legal : CueMapFor device3Cues params.cueMap3 := params_legal.2.2.2.2.2.1

theorem cueMap5_legal : CueMapFor device5Cues params.cueMap5 := params_legal.2.2.2.2.2.2.1

theorem pixels_differ : params.pixelOn ≠ params.pixelOff := params_legal.2.2.2.2.2.2.2

end Config

end Sys2Proof
end

