-- ==== Sys2Proof/Laws/State.lean ====
section
/-! SUPPORT. One lemma for each field of State under each named update, and for the two reads (a byte of the backing
store, a pixel of the frame buffer). -/

namespace Sys2Proof.Machine

/-! ## `emit` -/

@[simp] theorem emit_mem (s : State) (es : List Event) : (s.emit es).mem = s.mem := rfl
@[simp] theorem emit_srLow (s : State) (es : List Event) : (s.emit es).srLow = s.srLow := rfl
@[simp] theorem emit_srHigh (s : State) (es : List Event) : (s.emit es).srHigh = s.srHigh := rfl
@[simp] theorem emit_srOffset (s : State) (es : List Event) : (s.emit es).srOffset = s.srOffset := rfl
@[simp] theorem emit_latch3 (s : State) (es : List Event) : (s.emit es).latch3 = s.latch3 := rfl
@[simp] theorem emit_latch5 (s : State) (es : List Event) : (s.emit es).latch5 = s.latch5 := rfl
@[simp] theorem emit_creditPrev (s : State) (es : List Event) : (s.emit es).creditPrev = s.creditPrev := rfl
@[simp] theorem emit_input (s : State) (es : List Event) : (s.emit es).input = s.input := rfl
@[simp] theorem emit_dipShips (s : State) (es : List Event) : (s.emit es).dipShips = s.dipShips := rfl
@[simp] theorem emit_dipExtra (s : State) (es : List Event) : (s.emit es).dipExtra = s.dipExtra := rfl
@[simp] theorem emit_dipCoin (s : State) (es : List Event) : (s.emit es).dipCoin = s.dipCoin := rfl
@[simp] theorem emit_cycles (s : State) (es : List Event) : (s.emit es).cycles = s.cycles := rfl
@[simp] theorem emit_midFired (s : State) (es : List Event) : (s.emit es).midFired = s.midFired := rfl
@[simp] theorem emit_endFired (s : State) (es : List Event) : (s.emit es).endFired = s.endFired := rfl
@[simp] theorem emit_phase (s : State) (es : List Event) : (s.emit es).phase = s.phase := rfl
@[simp] theorem emit_lifecycle (s : State) (es : List Event) : (s.emit es).lifecycle = s.lifecycle := rfl
@[simp] theorem emit_paused (s : State) (es : List Event) : (s.emit es).paused = s.paused := rfl
@[simp] theorem emit_fb (s : State) (es : List Event) : (s.emit es).fb = s.fb := rfl
@[simp] theorem emit_trace (s : State) (es : List Event) : (s.emit es).trace = s.trace ++ es := rfl
@[simp] theorem emit_answer (s : State) (es : List Event) : (s.emit es).answer = s.answer := rfl
@[simp] theorem emit_requests (s : State) (es : List Event) : (s.emit es).requests = s.requests := rfl
@[simp] theorem emit_romPort (s : State) (es : List Event) : (s.emit es).romPort = s.romPort := rfl
@[simp] theorem emit_allocDraws (s : State) (es : List Event) : (s.emit es).allocDraws = s.allocDraws := rfl

/-! ## `respond` -/

@[simp] theorem respond_mem (s : State) (a : Answer) : (s.respond a).mem = s.mem := rfl
@[simp] theorem respond_srLow (s : State) (a : Answer) : (s.respond a).srLow = s.srLow := rfl
@[simp] theorem respond_srHigh (s : State) (a : Answer) : (s.respond a).srHigh = s.srHigh := rfl
@[simp] theorem respond_srOffset (s : State) (a : Answer) : (s.respond a).srOffset = s.srOffset := rfl
@[simp] theorem respond_latch3 (s : State) (a : Answer) : (s.respond a).latch3 = s.latch3 := rfl
@[simp] theorem respond_latch5 (s : State) (a : Answer) : (s.respond a).latch5 = s.latch5 := rfl
@[simp] theorem respond_creditPrev (s : State) (a : Answer) : (s.respond a).creditPrev = s.creditPrev := rfl
@[simp] theorem respond_input (s : State) (a : Answer) : (s.respond a).input = s.input := rfl
@[simp] theorem respond_dipShips (s : State) (a : Answer) : (s.respond a).dipShips = s.dipShips := rfl
@[simp] theorem respond_dipExtra (s : State) (a : Answer) : (s.respond a).dipExtra = s.dipExtra := rfl
@[simp] theorem respond_dipCoin (s : State) (a : Answer) : (s.respond a).dipCoin = s.dipCoin := rfl
@[simp] theorem respond_cycles (s : State) (a : Answer) : (s.respond a).cycles = s.cycles := rfl
@[simp] theorem respond_midFired (s : State) (a : Answer) : (s.respond a).midFired = s.midFired := rfl
@[simp] theorem respond_endFired (s : State) (a : Answer) : (s.respond a).endFired = s.endFired := rfl
@[simp] theorem respond_phase (s : State) (a : Answer) : (s.respond a).phase = s.phase := rfl
@[simp] theorem respond_lifecycle (s : State) (a : Answer) : (s.respond a).lifecycle = s.lifecycle := rfl
@[simp] theorem respond_paused (s : State) (a : Answer) : (s.respond a).paused = s.paused := rfl
@[simp] theorem respond_fb (s : State) (a : Answer) : (s.respond a).fb = s.fb := rfl
@[simp] theorem respond_trace (s : State) (a : Answer) : (s.respond a).trace = s.trace := rfl
@[simp] theorem respond_answer (s : State) (a : Answer) : (s.respond a).answer = a := rfl
@[simp] theorem respond_requests (s : State) (a : Answer) : (s.respond a).requests = s.requests := rfl
@[simp] theorem respond_romPort (s : State) (a : Answer) : (s.respond a).romPort = s.romPort := rfl
@[simp] theorem respond_allocDraws (s : State) (a : Answer) : (s.respond a).allocDraws = s.allocDraws := rfl

/-! ## `writeMem` -/

@[simp] theorem writeMem_mem (s : State) (i : Nat) (v : Byte) : (s.writeMem i v).mem = s.mem.write i v := rfl
@[simp] theorem writeMem_srLow (s : State) (i : Nat) (v : Byte) : (s.writeMem i v).srLow = s.srLow := rfl
@[simp] theorem writeMem_srHigh (s : State) (i : Nat) (v : Byte) : (s.writeMem i v).srHigh = s.srHigh := rfl
@[simp] theorem writeMem_srOffset (s : State) (i : Nat) (v : Byte) : (s.writeMem i v).srOffset = s.srOffset := rfl
@[simp] theorem writeMem_latch3 (s : State) (i : Nat) (v : Byte) : (s.writeMem i v).latch3 = s.latch3 := rfl
@[simp] theorem writeMem_latch5 (s : State) (i : Nat) (v : Byte) : (s.writeMem i v).latch5 = s.latch5 := rfl
@[simp] theorem writeMem_creditPrev (s : State) (i : Nat) (v : Byte) : (s.writeMem i v).creditPrev = s.creditPrev := rfl
@[simp] theorem writeMem_input (s : State) (i : Nat) (v : Byte) : (s.writeMem i v).input = s.input := rfl
@[simp] theorem writeMem_dipShips (s : State) (i : Nat) (v : Byte) : (s.writeMem i v).dipShips = s.dipShips := rfl
@[simp] theorem writeMem_dipExtra (s : State) (i : Nat) (v : Byte) : (s.writeMem i v).dipExtra = s.dipExtra := rfl
@[simp] theorem writeMem_dipCoin (s : State) (i : Nat) (v : Byte) : (s.writeMem i v).dipCoin = s.dipCoin := rfl
@[simp] theorem writeMem_cycles (s : State) (i : Nat) (v : Byte) : (s.writeMem i v).cycles = s.cycles := rfl
@[simp] theorem writeMem_midFired (s : State) (i : Nat) (v : Byte) : (s.writeMem i v).midFired = s.midFired := rfl
@[simp] theorem writeMem_endFired (s : State) (i : Nat) (v : Byte) : (s.writeMem i v).endFired = s.endFired := rfl
@[simp] theorem writeMem_phase (s : State) (i : Nat) (v : Byte) : (s.writeMem i v).phase = s.phase := rfl
@[simp] theorem writeMem_lifecycle (s : State) (i : Nat) (v : Byte) : (s.writeMem i v).lifecycle = s.lifecycle := rfl
@[simp] theorem writeMem_paused (s : State) (i : Nat) (v : Byte) : (s.writeMem i v).paused = s.paused := rfl
@[simp] theorem writeMem_fb (s : State) (i : Nat) (v : Byte) : (s.writeMem i v).fb = s.fb := rfl
@[simp] theorem writeMem_trace (s : State) (i : Nat) (v : Byte) : (s.writeMem i v).trace = s.trace := rfl
@[simp] theorem writeMem_answer (s : State) (i : Nat) (v : Byte) : (s.writeMem i v).answer = s.answer := rfl
@[simp] theorem writeMem_requests (s : State) (i : Nat) (v : Byte) : (s.writeMem i v).requests = s.requests := rfl
@[simp] theorem writeMem_romPort (s : State) (i : Nat) (v : Byte) : (s.writeMem i v).romPort = s.romPort := rfl
@[simp] theorem writeMem_allocDraws (s : State) (i : Nat) (v : Byte) : (s.writeMem i v).allocDraws = s.allocDraws := rfl

/-! ## The reads -/

@[simp] theorem emit_memByte (s : State) (es : List Event) (i : Nat) : (s.emit es).memByte i = s.memByte i := rfl
@[simp] theorem respond_memByte (s : State) (a : Answer) (i : Nat) : (s.respond a).memByte i = s.memByte i := rfl
@[simp] theorem emit_fbPixel (s : State) (es : List Event) (p : Nat) : (s.emit es).fbPixel p = s.fbPixel p := rfl
@[simp] theorem respond_fbPixel (s : State) (a : Answer) (p : Nat) : (s.respond a).fbPixel p = s.fbPixel p := rfl
@[simp] theorem writeMem_fbPixel (s : State) (i : Nat) (v : Byte) (p : Nat) :
    (s.writeMem i v).fbPixel p = s.fbPixel p := rfl

/-- A byte reads the same in two states that list the same memory. -/
theorem memByte_congr {s t : State} (h : t.mem = s.mem) (hn : t.allocDraws = s.allocDraws) (i : Nat) :
    t.memByte i = s.memByte i := by
  simp [State.memByte, h, hn]

/-- A pixel reads the same in two states with the same frame buffer. -/
theorem fbPixel_congr {s t : State} (h : t.fb = s.fb) (hn : t.allocDraws = s.allocDraws) (p : Nat) :
    t.fbPixel p = s.fbPixel p := by
  simp [State.fbPixel, h, hn]

/-! ## Two updates in a row -/

@[simp] theorem emit_nil (s : State) : s.emit [] = s := by simp [State.emit]

@[simp] theorem emit_emit (s : State) (es fs : List Event) : (s.emit es).emit fs = s.emit (es ++ fs) := by
  simp [State.emit]

@[simp] theorem respond_respond (s : State) (a b : Answer) : (s.respond a).respond b = s.respond b := rfl

theorem respond_emit (s : State) (a : Answer) (es : List Event) :
    (s.respond a).emit es = (s.emit es).respond a := rfl

@[simp] theorem assertInterrupt_eq (s : State) (v : Byte) : s.assertInterrupt v = s.emit [.irq v] := rfl

/-! ## The field groups of SETUP and SHUTDOWN that later claims read -/

@[simp] theorem bringUp_mem (sr : ShiftInit) (x : BitVec 2) (e c : Bool) (s : State) :
    (bringUp sr x e c s).mem = romContents s.romPort := rfl
@[simp] theorem bringUp_paused (sr : ShiftInit) (x : BitVec 2) (e c : Bool) (s : State) :
    (bringUp sr x e c s).paused = s.paused := rfl
@[simp] theorem bringUp_lifecycle (sr : ShiftInit) (x : BitVec 2) (e c : Bool) (s : State) :
    (bringUp sr x e c s).lifecycle = .on := rfl
@[simp] theorem bringUp_phase (sr : ShiftInit) (x : BitVec 2) (e c : Bool) (s : State) :
    (bringUp sr x e c s).phase = .idle := rfl
@[simp] theorem bringUp_fb (sr : ShiftInit) (x : BitVec 2) (e c : Bool) (s : State) :
    (bringUp sr x e c s).fb = [] := rfl
@[simp] theorem bringUp_trace (sr : ShiftInit) (x : BitVec 2) (e c : Bool) (s : State) :
    (bringUp sr x e c s).trace = s.trace := rfl
@[simp] theorem tearDown_lifecycle (s : State) : (tearDown s).lifecycle = .off := rfl
@[simp] theorem tearDown_phase (s : State) : (tearDown s).phase = s.phase := rfl
@[simp] theorem tearDown_paused (s : State) : (tearDown s).paused = s.paused := rfl
@[simp] theorem tearDown_mem (s : State) : (tearDown s).mem = [] := rfl
@[simp] theorem tearDown_fb (s : State) : (tearDown s).fb = [] := rfl
@[simp] theorem tearDown_trace (s : State) : (tearDown s).trace = s.trace := rfl

end Sys2Proof.Machine
end

