-- ==== Sys2Proof/Laws/Memory.lean ====
section
/-! SUPPORT. The laws of the backing store: read after write, and that every memory operation keeps the canonical
form. -/

namespace Sys2Proof.Machine

/-! ## Reads and writes -/

@[simp] theorem read?_write_same (m : Memory) (i : Nat) (v : Byte) : (m.write i v).read? i = some v := by
  induction m with
  | nil => simp [Memory.write, Memory.read?]
  | cons c rest ih =>
    obtain ⟨k, b⟩ := c
    unfold Memory.write
    split
    · simp [Memory.read?]
    · split
      · simp [Memory.read?]
      · have : k ≠ i := by omega
        simp [Memory.read?, this, ih]

theorem read?_write_other (m : Memory) {i j : Nat} (v : Byte) (h : j ≠ i) :
    (m.write i v).read? j = m.read? j := by
  induction m with
  | nil => simp [Memory.write, Memory.read?, h.symm]
  | cons c rest ih =>
    obtain ⟨k, b⟩ := c
    unfold Memory.write
    split
    · simp [Memory.read?, h.symm]
    · split
      · rename_i _ hik
        subst hik
        simp [Memory.read?, h.symm]
      · by_cases hk : k = j <;> simp [Memory.read?, hk, ih]

@[simp] theorem memByte_writeMem_same (s : State) (i : Nat) (v : Byte) : (s.writeMem i v).memByte i = v := by
  simp [State.memByte]

theorem memByte_writeMem_other (s : State) {i j : Nat} (v : Byte) (h : j ≠ i) :
    (s.writeMem i v).memByte j = s.memByte j := by
  simp [State.memByte, read?_write_other _ _ h]

/-! ## The canonical form -/

theorem mem_of_mem_write {m : Memory} {i : Nat} {v : Byte} {c : Host.Cell} (h : c ∈ m.write i v) :
    c = (i, v) ∨ c ∈ m := by
  induction m with
  | nil => simpa [Memory.write] using h
  | cons d rest ih =>
    obtain ⟨k, b⟩ := d
    unfold Memory.write at h
    split at h
    · simpa using h
    · split at h
      · rcases List.mem_cons.mp h with h | h
        · exact .inl h
        · exact .inr (List.mem_cons_of_mem _ h)
      · rcases List.mem_cons.mp h with h | h
        · exact .inr (h ▸ List.mem_cons_self)
        · rcases ih h with h | h
          · exact .inl h
          · exact .inr (List.mem_cons_of_mem _ h)

/-- A write inside the backing store keeps the canonical form. -/
theorem write_wf {m : Memory} {i : Nat} (v : Byte) (hm : m.wf) (hi : i < 0x4000) : (m.write i v).wf := by
  refine ⟨?_, fun c hc => ?_⟩
  · obtain ⟨hs, -⟩ := hm
    induction m with
    | nil => simp [Memory.write]
    | cons d rest ih =>
      obtain ⟨k, b⟩ := d
      rw [List.pairwise_cons] at hs
      unfold Memory.write
      split
      · rename_i hik
        refine List.pairwise_cons.mpr ⟨fun c hc => ?_, List.pairwise_cons.mpr hs⟩
        rcases List.mem_cons.mp hc with rfl | hc
        · exact hik
        · exact Nat.lt_trans hik (hs.1 c hc)
      · split
        · rename_i hik
          subst hik
          exact List.pairwise_cons.mpr ⟨hs.1, hs.2⟩
        · refine List.pairwise_cons.mpr ⟨fun c hc => ?_, ih hs.2⟩
          rcases mem_of_mem_write hc with rfl | hc
          · show k < i
            omega
          · exact hs.1 c hc
  · rcases mem_of_mem_write hc with rfl | hc
    · exact hi
    · exact hm.2 c hc

theorem nil_wf : Memory.wf [] := ⟨.nil, fun _ h => nomatch h⟩

/-! ## ROM as SETUP loads it -/

theorem mem_place {base : Nat} {bytes : List Byte} {c : Host.Cell} (h : c ∈ Memory.place base bytes) :
    base ≤ c.1 ∧ c.1 < base + bytes.length := by
  induction bytes generalizing base with
  | nil => simp [Memory.place] at h
  | cons b rest ih =>
    rcases List.mem_cons.mp h with rfl | h
    · simp
    · have := ih h
      simp only [List.length_cons]
      omega

theorem place_pairwise (base : Nat) (bytes : List Byte) :
    (Memory.place base bytes).Pairwise (fun x y => x.1 < y.1) := by
  induction bytes generalizing base with
  | nil => simp [Memory.place]
  | cons b rest ih =>
    refine List.pairwise_cons.mpr ⟨fun c hc => ?_, ih _⟩
    have := (mem_place hc).1
    show base < c.1
    omega

theorem read?_place (base : Nat) (bytes : List Byte) (i : Nat) :
    (Memory.place base bytes).read? i = if base ≤ i then bytes[i - base]? else none := by
  induction bytes generalizing base with
  | nil => simp [Memory.place, Memory.read?]
  | cons b rest ih =>
    unfold Memory.place
    simp only [Memory.read?, ih]
    by_cases h : base = i
    · subst h; simp
    · by_cases hle : base ≤ i
      · have h1 : base + 1 ≤ i := by omega
        have h2 : i - base = (i - (base + 1)) + 1 := by omega
        simp [h, hle, h1, h2]
      · have h1 : ¬ base + 1 ≤ i := by omega
        simp [h, hle, h1]

theorem read?_append (m n : Memory) (i : Nat) :
    Memory.read? (m ++ n) i = (m.read? i).or (n.read? i) := by
  induction m with
  | nil => simp [Memory.read?]
  | cons c rest ih =>
    obtain ⟨k, b⟩ := c
    by_cases h : k = i <;> simp [Memory.read?, h, ih]

/-- The images a SETUP that finds no error is given. -/
theorem romError_eq_none {i : Nat} {images : List (Option (List Byte))} (h : romError i images = none) :
    ∀ x ∈ images, ∃ bytes, x = some bytes ∧ bytes.length = 2048 := by
  induction images generalizing i with
  | nil => simp
  | cons x rest ih =>
    cases x with
    | none => simp [romError] at h
    | some bytes =>
      unfold romError at h
      split at h
      · rename_i hlen
        intro y hy
        rcases List.mem_cons.mp hy with rfl | hy
        · exact ⟨bytes, rfl, hlen⟩
        · exact ih h y hy
      · simp at h

/-- Four images that SETUP finds no error in, each with its 2048 bytes. -/
theorem images_of_romError_eq_none {r : RomImages} (h : romError 0 r.list = none) :
    ∃ b0 b1 b2 b3, r = ⟨some b0, some b1, some b2, some b3⟩ ∧
      b0.length = 2048 ∧ b1.length = 2048 ∧ b2.length = 2048 ∧ b3.length = 2048 := by
  have all := romError_eq_none h
  obtain ⟨i0, i1, i2, i3⟩ := r
  simp only [RomImages.list, List.mem_cons, List.not_mem_nil, or_false, forall_eq_or_imp, forall_eq] at all
  obtain ⟨⟨b0, rfl, h0⟩, ⟨b1, rfl, h1⟩, ⟨b2, rfl, h2⟩, ⟨b3, rfl, h3⟩⟩ := all
  exact ⟨b0, b1, b2, b3, rfl, h0, h1, h2, h3⟩

/-- ROM as SETUP loads it is in canonical form. -/
theorem romContents_wf {r : RomImages} (h : romError 0 r.list = none) : (romContents r).wf := by
  obtain ⟨b0, b1, b2, b3, rfl, h0, h1, h2, h3⟩ := images_of_romError_eq_none h
  simp only [romContents, Option.getD_some]
  refine ⟨?_, fun c hc => ?_⟩
  · simp only [List.pairwise_append, List.mem_append]
    refine ⟨⟨⟨place_pairwise _ _, place_pairwise _ _, ?_⟩, place_pairwise _ _, ?_⟩, place_pairwise _ _, ?_⟩
    · intro x hx y hy
      have := mem_place hx; have := mem_place hy; omega
    · rintro x (hx | hx) y hy <;> (have := mem_place hx; have := mem_place hy; omega)
    · rintro x ((hx | hx) | hx) y hy <;> (have := mem_place hx; have := mem_place hy; omega)
  · simp only [List.mem_append] at hc
    rcases hc with ((hc | hc) | hc) | hc <;> (have := mem_place hc; omega)

/-- Every ROM byte is loaded, and reads as its image's byte (spec/10_state.md R24). -/
theorem read?_romContents {r : RomImages} (h : romError 0 r.list = none) {k j : Nat} (hk : k < 4) (hj : j < 2048) :
    (romContents r).read? (0x800 * k + j) = ((r.list[k]?.join).bind (·[j]?)) := by
  obtain ⟨b0, b1, b2, b3, rfl, h0, h1, h2, h3⟩ := images_of_romError_eq_none h
  have hc : k = 0 ∨ k = 1 ∨ k = 2 ∨ k = 3 := by omega
  simp only [romContents, Option.getD_some, read?_append, read?_place, RomImages.list]
  have out : ∀ (b : List Byte) (n : Nat), b.length = 2048 → 2048 ≤ n → b[n]? = none := by
    intro b n hb hn; exact List.getElem?_eq_none (by omega)
  rcases hc with rfl | rfl | rfl | rfl
  · rw [if_pos (by omega), if_neg (by omega), if_neg (by omega), if_neg (by omega)]
    simp
  · have e0 := out b0 (0x800 * 1 + j - 0) h0 (by omega)
    have g2 : ¬ 4096 ≤ 0x800 * 1 + j := by omega
    have g3 : ¬ 6144 ≤ 0x800 * 1 + j := by omega
    rw [if_pos (by omega), e0, if_pos (by omega), if_neg g2, if_neg g3]
    have : 0x800 * 1 + j - 2048 = j := by omega
    simp
  · have e0 := out b0 (0x800 * 2 + j - 0) h0 (by omega)
    have e1 := out b1 (0x800 * 2 + j - 2048) h1 (by omega)
    have g3 : ¬ 6144 ≤ 0x800 * 2 + j := by omega
    rw [if_pos (by omega), e0, if_pos (by omega), e1, if_pos (by omega), if_neg g3]
    simp
  · have e0 := out b0 (0x800 * 3 + j - 0) h0 (by omega)
    have e1 := out b1 (0x800 * 3 + j - 2048) h1 (by omega)
    have e2 := out b2 (0x800 * 3 + j - 4096) h2 (by omega)
    rw [if_pos (by omega), e0, if_pos (by omega), e1, if_pos (by omega), e2, if_pos (by omega)]
    simp

end Sys2Proof.Machine
end

