-- ==== Sys2Proof/Laws/Ops.lean ====
section
/-! SUPPORT. What the shared operations can do: acceptance, the threshold checks, the loop test and the address
decoder. -/

namespace Sys2Proof.Machine

/-! ## Acceptance -/

@[simp] theorem acceptIf_next {P : Prop} [Decidable P] {t u : State} :
    acceptIf P t = .next u ↔ P ∧ u = t := by
  unfold acceptIf
  split
  · rename_i h
    simp [h, eq_comm]
  · rename_i h
    simp [h]

theorem acceptIf_pos {P : Prop} [Decidable P] {t : State} (h : P) : acceptIf P t = .next t := by
  simp [h]

theorem acceptIf_neg {P : Prop} [Decidable P] {t : State} (h : ¬ P) : acceptIf P t = .refused .wrongState := by
  simp [acceptIf, h]

/-! ## The address decoder (spec/20_memory.md R61) -/

theorem decodeAddr_rom {a : Addr} (h : a.toNat < 0x2000) : decodeAddr a = .rom a.toNat := by
  simp [decodeAddr, h]

theorem decodeAddr_ram {a : Addr} (h : 0x2000 ≤ a.toNat) (h' : a.toNat < 0x4000) :
    decodeAddr a = .ram a.toNat := by
  have h1 : ¬ a.toNat < 8192 := by omega
  simp [decodeAddr, h1, h']

theorem decodeAddr_mirror {a : Addr} (h : 0x4000 ≤ a.toNat) (h' : a.toNat < 0x6000) :
    decodeAddr a = .mirror (a.toNat - 0x2000) := by
  have h1 : ¬ a.toNat < 8192 := by omega
  have h2 : ¬ a.toNat < 16384 := by omega
  simp [decodeAddr, h1, h2, h']

theorem decodeAddr_oob {a : Addr} (h : 0x6000 ≤ a.toNat) : decodeAddr a = .oob := by
  have h1 : ¬ a.toNat < 8192 := by omega
  have h2 : ¬ a.toNat < 16384 := by omega
  have h3 : ¬ a.toNat < 24576 := by omega
  simp [decodeAddr, h1, h2, h3]

/-- Every address is in exactly one region, at the index R61 gives it. -/
theorem decodeAddr_cases (a : Addr) :
    (a.toNat < 0x2000 ∧ decodeAddr a = .rom a.toNat) ∨
    (0x2000 ≤ a.toNat ∧ a.toNat < 0x4000 ∧ decodeAddr a = .ram a.toNat) ∨
    (0x4000 ≤ a.toNat ∧ a.toNat < 0x6000 ∧ decodeAddr a = .mirror (a.toNat - 0x2000)) ∨
    (0x6000 ≤ a.toNat ∧ decodeAddr a = .oob) := by
  by_cases h1 : a.toNat < 0x2000
  · exact .inl ⟨h1, decodeAddr_rom h1⟩
  · by_cases h2 : a.toNat < 0x4000
    · exact .inr (.inl ⟨by omega, h2, decodeAddr_ram (by omega) h2⟩)
    · by_cases h3 : a.toNat < 0x6000
      · exact .inr (.inr (.inl ⟨by omega, h3, decodeAddr_mirror (by omega) h3⟩))
      · exact .inr (.inr (.inr ⟨by omega, decodeAddr_oob (by omega)⟩))

/-! ## The threshold checks (spec/44_tick_scheduler.md R196, R197) -/

/-- The mid check fires, or changes nothing. -/
theorem midCheck_cases (p : Params) (s : State) :
    (s.midFired = false ∧ p.midThreshold ≤ s.cycles ∧
      midCheck p s = { s.emit [.irq p.midVector] with midFired := true }) ∨
    (¬ (s.midFired = false ∧ p.midThreshold ≤ s.cycles) ∧ midCheck p s = s) := by
  unfold midCheck
  split
  · rename_i h
    exact .inl ⟨h.1, h.2, rfl⟩
  · rename_i h
    exact .inr ⟨h, rfl⟩

/-- The end check fires and converts the frame, or changes nothing. -/
theorem endCheck_cases (p : Params) (s : State) :
    (s.endFired = false ∧ p.cyclesPerTick ≤ s.cycles ∧
      endCheck p s = { s.emit [.irq p.endVector, .frame] with
        endFired := true, fb := videoFrame p.pixelOn p.pixelOff s.memByte }) ∨
    (¬ (s.endFired = false ∧ p.cyclesPerTick ≤ s.cycles) ∧ endCheck p s = s) := by
  unfold endCheck
  split
  · rename_i h
    refine .inl ⟨h.1, h.2, ?_⟩
    simp only [videoConvert, State.assertInterrupt, State.emit, List.append_assoc]
    rfl
  · rename_i h
    exact .inr ⟨h, rfl⟩

/-- The loop test asks for one more step, or ends the tick and carries the overshoot. -/
theorem loopTest_cases (p : Params) (s : State) :
    (s.cycles ≤ p.cyclesPerTick ∧ loopTest p s = { s.emit [.step] with phase := .stepWait }) ∨
    (p.cyclesPerTick < s.cycles ∧
      loopTest p s = { s.emit [.tickdone] with cycles := s.cycles - p.cyclesPerTick, phase := .idle }) := by
  unfold loopTest tickEnd
  split
  · rename_i h
    exact .inl ⟨h, rfl⟩
  · rename_i h
    exact .inr ⟨by omega, rfl⟩

end Sys2Proof.Machine
end

