-- ==== Sys2Proof/Laws/Decode.lean ====
section
/-! SUPPORT. The fields of a packed word, and what the decoders and the dispatch by address and device give. -/

namespace Sys2Proof

/-! ## Fields of a packed word (spec/30_encoding.md R80) -/

theorem packWord_toNat (op : BitVec 4) (d : Byte) (a : Addr) :
    (packWord op d a).toNat = op.toNat * 2 ^ 28 + d.toNat * 2 ^ 16 + a.toNat := by
  have h1 := op.isLt; have h2 := d.isLt; have h3 := a.isLt
  simp only [packWord, BitVec.toNat_append]
  rw [← Nat.shiftLeft_add_eq_or_of_lt (b := BitVec.toNat a) h3, ← Nat.shiftLeft_add_eq_or_of_lt (b := BitVec.toNat d) h2,
    ← Nat.shiftLeft_add_eq_or_of_lt (BitVec.isLt (0#4))]
  simp only [Nat.shiftLeft_eq, BitVec.toNat_ofNat]
  omega

@[simp] theorem fieldOp_packWord (op : BitVec 4) (d : Byte) (a : Addr) : fieldOp (packWord op d a) = op := by
  have h1 := op.isLt; have h2 := d.isLt; have h3 := a.isLt
  apply BitVec.eq_of_toNat_eq
  simp only [fieldOp, BitVec.extractLsb'_toNat, packWord_toNat, Nat.shiftRight_eq_div_pow]
  omega

@[simp] theorem fieldRsv_packWord (op : BitVec 4) (d : Byte) (a : Addr) : fieldRsv (packWord op d a) = 0#4 := by
  have h1 := op.isLt; have h2 := d.isLt; have h3 := a.isLt
  apply BitVec.eq_of_toNat_eq
  simp only [fieldRsv, BitVec.extractLsb'_toNat, packWord_toNat, Nat.shiftRight_eq_div_pow, BitVec.toNat_ofNat]
  omega

@[simp] theorem fieldD_packWord (op : BitVec 4) (d : Byte) (a : Addr) : fieldD (packWord op d a) = d := by
  have h1 := op.isLt; have h2 := d.isLt; have h3 := a.isLt
  apply BitVec.eq_of_toNat_eq
  simp only [fieldD, BitVec.extractLsb'_toNat, packWord_toNat, Nat.shiftRight_eq_div_pow]
  omega

@[simp] theorem fieldA_packWord (op : BitVec 4) (d : Byte) (a : Addr) : fieldA (packWord op d a) = a := by
  have h1 := op.isLt; have h2 := d.isLt; have h3 := a.isLt
  apply BitVec.eq_of_toNat_eq
  simp only [fieldA, BitVec.extractLsb'_toNat, packWord_toNat, Nat.shiftRight_eq_div_pow]
  omega

@[simp] theorem fieldCost_packWord (op : BitVec 4) (c : BitVec 24) :
    fieldCost (packWord op (c.extractLsb' 16 8) (c.extractLsb' 0 16)) = c := by
  have h1 := op.isLt; have h2 := c.isLt
  apply BitVec.eq_of_toNat_eq
  simp only [fieldCost, BitVec.extractLsb'_toNat, packWord_toNat, Nat.shiftRight_eq_div_pow]
  omega

/-- A word is packed from its fields where RSV is 0. -/
theorem packWord_fields {w : Word} (h : fieldRsv w = 0#4) : packWord (fieldOp w) (fieldD w) (fieldA w) = w := by
  have hw := w.isLt
  have h' := congrArg BitVec.toNat h
  apply BitVec.eq_of_toNat_eq
  simp only [fieldRsv, fieldOp, fieldD, fieldA, BitVec.extractLsb'_toNat, packWord_toNat, Nat.shiftRight_eq_div_pow,
    BitVec.toNat_ofNat] at h' ⊢
  omega

/-- The cost field is the D and A fields (R83). -/
theorem fieldCost_eq (w : Word) :
    (fieldCost w).extractLsb' 16 8 = fieldD w ∧ (fieldCost w).extractLsb' 0 16 = fieldA w := by
  have hw := w.isLt
  constructor <;> apply BitVec.eq_of_toNat_eq <;>
    simp only [fieldCost, fieldD, fieldA, BitVec.extractLsb'_toNat, Nat.shiftRight_eq_div_pow] <;> omega

/-! ## Rows by address and device (R93, spec/41_port_io.md R120) -/

theorem rowOfRead_rom {a : Addr} (h : a.toNat < 0x2000) : rowOfRead a = .memrdRom a := by
  simp [rowOfRead, Machine.decodeAddr_rom h]

theorem rowOfRead_ram {a : Addr} (h : 0x2000 ≤ a.toNat) (h' : a.toNat < 0x4000) : rowOfRead a = .memrdRam a := by
  simp [rowOfRead, Machine.decodeAddr_ram h h']

theorem rowOfRead_mirror {a : Addr} (h : 0x4000 ≤ a.toNat) (h' : a.toNat < 0x6000) :
    rowOfRead a = .memrdMirror a := by
  simp [rowOfRead, Machine.decodeAddr_mirror h h']

theorem rowOfRead_oob {a : Addr} (h : 0x6000 ≤ a.toNat) : rowOfRead a = .memrdOob a := by
  simp [rowOfRead, Machine.decodeAddr_oob h]

theorem rowOfWrite_rom {a : Addr} (v : Byte) (h : a.toNat < 0x2000) : rowOfWrite a v = .memwrRom a v := by
  simp [rowOfWrite, Machine.decodeAddr_rom h]

theorem rowOfWrite_ram {a : Addr} (v : Byte) (h : 0x2000 ≤ a.toNat) (h' : a.toNat < 0x4000) :
    rowOfWrite a v = .memwrRam a v := by
  simp [rowOfWrite, Machine.decodeAddr_ram h h']

theorem rowOfWrite_mirror {a : Addr} (v : Byte) (h : 0x4000 ≤ a.toNat) (h' : a.toNat < 0x6000) :
    rowOfWrite a v = .memwrMirror a v := by
  simp [rowOfWrite, Machine.decodeAddr_mirror h h']

theorem rowOfWrite_oob {a : Addr} (v : Byte) (h : 0x6000 ≤ a.toNat) : rowOfWrite a v = .memwrOob a v := by
  simp [rowOfWrite, Machine.decodeAddr_oob h]

theorem rowOfIord_unmapped {n : Device} (h : 4 ≤ n.toNat) : rowOfIord n = .inUnmapped n := by
  have ne : ∀ k : Nat, k < 4 → n ≠ BitVec.ofNat 8 k := by
    rintro k hk rfl
    rw [BitVec.toNat_ofNat] at h
    omega
  have h0 := ne 0 (by decide); have h1 := ne 1 (by decide); have h2 := ne 2 (by decide); have h3 := ne 3 (by decide)
  simp [rowOfIord, h0, h1, h2, h3]

theorem rowOfIowr_unmapped {n : Device} (v : Byte) (h : n.toNat < 2 ∨ 6 ≤ n.toNat) :
    rowOfIowr n v = .outUnmapped n v := by
  have ne : ∀ k : Nat, 2 ≤ k → k < 6 → n ≠ BitVec.ofNat 8 k := by
    rintro k hk hk' rfl
    rw [BitVec.toNat_ofNat] at h
    omega
  have h2 := ne 2 (by decide) (by decide); have h3 := ne 3 (by decide) (by decide)
  have h4 := ne 4 (by decide) (by decide); have h5 := ne 5 (by decide) (by decide)
  simp [rowOfIowr, h2, h3, h4, h5]

/-- A device number in an A field (R82). -/
@[simp] theorem deviceField_device (n : Device) : (deviceField n).extractLsb' 0 8 = n := by
  have hn := n.isLt
  apply BitVec.eq_of_toNat_eq
  simp only [deviceField, BitVec.extractLsb'_toNat, BitVec.toNat_append, BitVec.toNat_ofNat, Nat.shiftRight_zero]
  simp; omega

@[simp] theorem deviceField_high (n : Device) : (deviceField n).extractLsb' 8 8 = 0#8 := by
  have hn := n.isLt
  apply BitVec.eq_of_toNat_eq
  simp only [deviceField, BitVec.extractLsb'_toNat, BitVec.toNat_append, BitVec.toNat_ofNat,
    Nat.shiftRight_eq_div_pow]
  simp; omega

/-! ## `require` (R87) -/

@[simp] theorem require_eq_some {α : Type} {c : Prop} [Decidable c] {x y : α} :
    require c x = some y ↔ c ∧ x = y := by
  unfold require
  split <;> simp [*]

@[simp] theorem require_eq_none {α : Type} {c : Prop} [Decidable c] {x : α} : require c x = none ↔ ¬ c := by
  unfold require
  split <;> simp [*]

/-! ## What a row's encoding is -/

/-- A memory read's row is well-formed, and encodes its address. -/
theorem rowOfRead_encode (a : Addr) :
    (rowOfRead a).wellFormed = true ∧ encode (rowOfRead a) = packWord 0x0 0 a := by
  rcases Machine.decodeAddr_cases a with ⟨h, e⟩ | ⟨h, h', e⟩ | ⟨h, h', e⟩ | ⟨h, e⟩ <;>
    simp [rowOfRead, e, Instr.wellFormed, encode, h] <;> omega

/-- A memory write's row is well-formed, and encodes its address and value. -/
theorem rowOfWrite_encode (a : Addr) (v : Byte) :
    (rowOfWrite a v).wellFormed = true ∧ encode (rowOfWrite a v) = packWord 0x1 v a := by
  rcases Machine.decodeAddr_cases a with ⟨h, e⟩ | ⟨h, h', e⟩ | ⟨h, h', e⟩ | ⟨h, e⟩ <;>
    simp [rowOfWrite, e, Instr.wellFormed, encode, h] <;> omega

/-- A device number is known by its value. -/
theorem device_ne {n : Device} {k : Nat} (h : n ≠ BitVec.ofNat 8 k) (hk : k < 256) : n.toNat ≠ k :=
  fun e => h (BitVec.eq_of_toNat_eq (by rw [e, BitVec.toNat_ofNat]; omega))

/-- A device read's row is well-formed, and encodes its device. -/
theorem rowOfIord_encode (n : Device) :
    (rowOfIord n).wellFormed = true ∧ encode (rowOfIord n) = packWord 0x2 0 (deviceField n) := by
  unfold rowOfIord
  split_ifs with h0 h1 h2 h3
  · subst h0; exact ⟨rfl, rfl⟩
  · subst h1; exact ⟨rfl, rfl⟩
  · subst h2; exact ⟨rfl, rfl⟩
  · subst h3; exact ⟨rfl, rfl⟩
  · have e0 := device_ne (k := 0) h0 (by decide); have e1 := device_ne (k := 1) h1 (by decide)
    have e2 := device_ne (k := 2) h2 (by decide); have e3 := device_ne (k := 3) h3 (by decide)
    refine ⟨?_, rfl⟩
    simp only [Instr.wellFormed, decide_eq_true_eq]
    omega

/-- A device write's row is well-formed, and encodes its device and value. -/
theorem rowOfIowr_encode (n : Device) (v : Byte) :
    (rowOfIowr n v).wellFormed = true ∧ encode (rowOfIowr n v) = packWord 0x3 v (deviceField n) := by
  unfold rowOfIowr
  split_ifs with h2 h3 h4 h5
  · subst h2; exact ⟨rfl, rfl⟩
  · subst h3; exact ⟨rfl, rfl⟩
  · subst h4; exact ⟨rfl, rfl⟩
  · subst h5; exact ⟨rfl, rfl⟩
  · have e2 := device_ne (k := 2) h2 (by decide); have e3 := device_ne (k := 3) h3 (by decide)
    have e4 := device_ne (k := 4) h4 (by decide); have e5 := device_ne (k := 5) h5 (by decide)
    refine ⟨?_, rfl⟩
    simp only [Instr.wellFormed, Bool.or_eq_true, decide_eq_true_eq]
    omega

/-! ## Cue ids and diagnostic codes -/

@[simp] theorem ofId_id (c : Cue) : Cue.ofId c.id = some c := by cases c <;> rfl

@[simp] theorem ofCode_code (c : DiagCode) : DiagCode.ofCode c.code = some c := by cases c <;> rfl

/-- A row's instruction is a transaction, with operands its row admits. -/
theorem row_isEvent (t : Txn) : t.row.isEvent = false := by
  cases t with
  | memrd a =>
    simp only [Txn.row, rowOfRead]
    cases decodeAddr a <;> rfl
  | memwr a v =>
    simp only [Txn.row, rowOfWrite]
    cases decodeAddr a <;> rfl
  | iord n =>
    simp only [Txn.row, rowOfIord]
    repeat' split
    all_goals rfl
  | iowr n v =>
    simp only [Txn.row, rowOfIowr]
    repeat' split
    all_goals rfl
  | tick | pause | setup | shutdown | fbrd | stepdone => rfl

end Sys2Proof
end

