-- ==== Sys2Proof/Laws/Operands.lean ====
section
/-! SUPPORT. What the read words, the shift window, the frame buffer and the edge detector hold, bit by bit. -/

namespace Sys2Proof.Machine

/-! ## Device words -/

theorem getLsbD_setBit (v : Byte) (i j : Nat) (b : Bool) (hj : j < 8) :
    (setBit v i b).getLsbD j = if j = i then b else v.getLsbD j := by
  unfold setBit
  by_cases h : j = i
  · subst h
    cases b <;> simp [hj]
  · by_cases hlt : j < i
    · cases b <;> simp [h, hj, hlt]
    · have : j - i ≠ 0 := by omega
      cases b <;> simp [h, hj, this]

/-- Device 1's word at the positions of a legal P1_MAP; the one bit it does not name reads 0 (R122). -/
theorem controlsWord_bits {m : P1Map} (hm : m.bits.Nodup) (x : BitVec 7) :
    (controlsWord m x).getLsbD m.credit = x.getLsbD 5 ∧
    (controlsWord m x).getLsbD m.start2 = x.getLsbD 4 ∧
    (controlsWord m x).getLsbD m.start1 = x.getLsbD 3 ∧
    (controlsWord m x).getLsbD m.fixed = true ∧
    (controlsWord m x).getLsbD m.fire = x.getLsbD 2 ∧
    (controlsWord m x).getLsbD m.left = x.getLsbD 0 ∧
    (controlsWord m x).getLsbD m.right = x.getLsbD 1 ∧
    (∀ j : Fin 8, j ∉ m.bits → (controlsWord m x).getLsbD j = false) := by
  obtain ⟨a, b, c, d, e, f, g⟩ := m
  simp only [P1Map.bits, List.nodup_cons, List.mem_cons, List.not_mem_nil, or_false, not_or, Fin.ext_iff] at hm
  have ha := a.isLt; have hb := b.isLt; have hc := c.isLt; have hd := d.isLt
  have he := e.isLt; have hf := f.isLt; have hg := g.isLt
  refine ⟨?_, ?_, ?_, ?_, ?_, ?_, ?_, ?_⟩
  all_goals simp only [controlsWord, inputLeft, inputRight, inputFire, inputStart1, inputStart2, inputCredit]
  all_goals first
    | (intro j hj
       simp only [P1Map.bits, List.mem_cons, List.not_mem_nil, or_false, not_or, Fin.ext_iff] at hj
       simp only [getLsbD_setBit _ _ _ _ j.isLt, hj, if_false]
       exact BitVec.getLsbD_zero)
    | (simp only [getLsbD_setBit, ha, hb, hc, hd, he, hf, hg]
       simp [*])

/-- Device 2's word at the positions of a legal P2_MAP (R123). -/
theorem dipWord_bits {m : P2Map} (hm : m.bits.Nodup) (ships : BitVec 2) (extra coin : Bool) (x : BitVec 7) :
    (dipWord m ships extra coin x).getLsbD m.ships = ships.getLsbD 0 ∧
    (dipWord m ships extra coin x).getLsbD (m.ships.val + 1) = ships.getLsbD 1 ∧
    (dipWord m ships extra coin x).getLsbD m.tilt = x.getLsbD 6 ∧
    (dipWord m ships extra coin x).getLsbD m.extra = extra ∧
    (dipWord m ships extra coin x).getLsbD m.fire = x.getLsbD 2 ∧
    (dipWord m ships extra coin x).getLsbD m.left = x.getLsbD 0 ∧
    (dipWord m ships extra coin x).getLsbD m.right = x.getLsbD 1 ∧
    (dipWord m ships extra coin x).getLsbD m.coin = coin := by
  obtain ⟨a, b, c, d, e, f, g⟩ := m
  simp only [P2Map.bits, List.nodup_cons, List.mem_cons, List.not_mem_nil, or_false, not_or, Fin.ext_iff,
    Fin.val_succ, Fin.val_castSucc] at hm
  have ha := a.isLt; have hb := b.isLt; have hc := c.isLt; have hd := d.isLt
  have he := e.isLt; have hf := f.isLt; have hg := g.isLt
  have ha8 : a.val < 8 := by omega
  have ha9 : a.val + 1 < 8 := by omega
  refine ⟨?_, ?_, ?_, ?_, ?_, ?_, ?_, ?_⟩
  all_goals
    simp only [dipWord, inputLeft, inputRight, inputFire, inputTilt]
    simp only [getLsbD_setBit, ha8, ha9, hb, hc, hd, he, hf, hg]
    simp [*]

/-! ## The shift window (spec/42_shift_register.md R153) -/

/-- Bit i of the window is bit 8 − offset + i of `{high, low}`. -/
theorem shiftWindow_bit (high low : Byte) (offset : BitVec 3) (i : Nat) (hi : i < 8) :
    (shiftWindow high low offset).getLsbD i = (high ++ low : BitVec 16).getLsbD (8 - offset.toNat + i) := by
  simp only [shiftWindow, BitVec.getLsbD_setWidth, BitVec.getLsbD_ushiftRight, hi, decide_true, Bool.true_and]

/-! ## The frame buffer (spec/45_video_converter.md R232) -/

@[simp] theorem byteLanes_length (on off : Pixel) (b : Byte) : (byteLanes on off b).length = 8 := by
  simp [byteLanes]

theorem byteLanes_get (on off : Pixel) (b : Byte) (j : Nat) (hj : j < 8) :
    (byteLanes on off b)[j]? = some (if b.getLsbD (7 - j) then on else off) := by
  simp [byteLanes, hj]

/-- Pieces of one length laid end to end: the piece and the place in it of an index. -/
theorem getElem?_flatMap_const {α β : Type} (f : α → List β) (n : Nat) (hn : 0 < n)
    (xs : List α) (h : ∀ x, (f x).length = n) (k : Nat) :
    (xs.flatMap f)[k]? = (xs[k / n]?).bind (fun x => (f x)[k % n]?) := by
  induction xs generalizing k with
  | nil => simp
  | cons x rest ih =>
    rw [List.flatMap_cons]
    by_cases hk : k < n
    · rw [List.getElem?_append_left (by rw [h]; exact hk), Nat.div_eq_of_lt hk, Nat.mod_eq_of_lt hk]
      simp
    · have hle : n ≤ k := by omega
      rw [List.getElem?_append_right (by rw [h]; exact hle), h, ih, Nat.div_eq_sub_div hn hle,
        Nat.mod_eq_sub_mod hle]
      simp

theorem length_flatMap_const {α β : Type} (f : α → List β) (n : Nat) (xs : List α) (h : ∀ x, (f x).length = n) :
    (xs.flatMap f).length = xs.length * n := by
  induction xs with
  | nil => simp
  | cons x rest ih => rw [List.flatMap_cons, List.length_append, h, ih, List.length_cons, Nat.succ_mul, Nat.add_comm]

@[simp] theorem videoFrame_length (on off : Pixel) (mem : Nat → Byte) : (videoFrame on off mem).length = 57344 := by
  rw [videoFrame, length_flatMap_const _ 8 _ (fun _ => byteLanes_length _ _ _), List.length_range]

/-- Pixel p of a converted frame is lane p mod 8 of video RAM byte p div 8. -/
theorem videoFrame_get (on off : Pixel) (mem : Nat → Byte) (p : Nat) (hp : p < 57344) :
    (videoFrame on off mem)[p]? =
      some (if (mem (0x2400 + p / 8)).getLsbD (7 - p % 8) then on else off) := by
  rw [videoFrame, getElem?_flatMap_const _ 8 (by decide) _ (fun _ => byteLanes_length _ _ _)]
  have h : p / 8 < 7168 := by omega
  rw [List.getElem?_range h, Option.bind_some, byteLanes_get _ _ _ _ (Nat.mod_lt _ (by decide))]

/-! ## The edge detector (spec/43_sound_trigger.md R172, R174) -/

theorem risingBits_bit (old new : Byte) (i : Nat) :
    (risingBits old new).getLsbD i = (!old.getLsbD i && new.getLsbD i) := by
  by_cases h : i < 8
  · simp [risingBits, h, Bool.and_comm]
  · simp [risingBits, BitVec.getLsbD_of_ge _ _ (Nat.not_lt.mp h)]

theorem fallingBits_bit (old new : Byte) (i : Nat) :
    (fallingBits old new).getLsbD i = (old.getLsbD i && !new.getLsbD i) := by
  by_cases h : i < 8
  · simp [fallingBits, h]
  · simp [fallingBits, BitVec.getLsbD_of_ge _ _ (Nat.not_lt.mp h)]

/-- A command of the edge detector: a PLAY of the cue of a bit that rose, or UFO's STOP for one that fell. -/
theorem mem_edgeCommands {map : List (Option Cue)} {old new : Byte} {e : Event} :
    e ∈ edgeCommands map old new ↔
      ∃ i < 8, ∃ c, map.getD i none = some c ∧
        ((old.getLsbD i = false ∧ new.getLsbD i = true ∧ e = .play c (c == .ufo)) ∨
         (old.getLsbD i = true ∧ new.getLsbD i = false ∧ c = .ufo ∧ e = .stop .ufo)) := by
  simp only [edgeCommands, List.mem_flatMap, List.mem_range, risingBits_bit, fallingBits_bit]
  refine exists_congr fun i => and_congr_right fun _ => ?_
  cases hm : map.getD i none with
  | none => simp [edgeCommand]
  | some c =>
    simp only [Option.some.injEq, exists_eq_left', edgeCommand]
    cases old.getLsbD i <;> cases new.getLsbD i <;> by_cases hc : c = .ufo <;> simp [hc]

/-- A byte the latch already holds has no edge. -/
@[simp] theorem edgeCommands_self (map : List (Option Cue)) (v : Byte) : edgeCommands map v v = [] := by
  rw [List.eq_nil_iff_forall_not_mem]
  intro e he
  obtain ⟨i, -, c, -, ⟨h0, h1, -⟩ | ⟨h1, h0, -⟩⟩ := mem_edgeCommands.mp he <;>
    exact Bool.false_ne_true (h0.symm.trans h1)

end Sys2Proof.Machine
end

