-- ==== Sys2Proof/Laws/Exec.lean ====
section
/-! SUPPORT. For each meaning, once and whole: when it answers a next state, and which. -/

namespace Sys2Proof.Machine

variable {s t : State}

/-! ## Memory (spec/40_memory_ops.md) -/

theorem execMemrdRom_next {a : Addr} : execMemrdRom a s = .next t ↔
    a.toNat < 0x2000 ∧ s.lifecycle = .on ∧ t = s.respond (.byte (s.memByte a.toNat)) := by
  unfold execMemrdRom
  rcases decodeAddr_cases a with ⟨h, e⟩ | ⟨h, h', e⟩ | ⟨h, h', e⟩ | ⟨h, e⟩ <;> rw [e] <;> simp <;> omega

theorem execMemrdRam_next {a : Addr} : execMemrdRam a s = .next t ↔
    (0x2000 ≤ a.toNat ∧ a.toNat < 0x4000) ∧ s.lifecycle = .on ∧ t = s.respond (.byte (s.memByte a.toNat)) := by
  unfold execMemrdRam
  rcases decodeAddr_cases a with ⟨h, e⟩ | ⟨h, h', e⟩ | ⟨h, h', e⟩ | ⟨h, e⟩ <;> rw [e] <;> simp <;> omega

theorem execMemrdMirror_next {a : Addr} : execMemrdMirror a s = .next t ↔
    (0x4000 ≤ a.toNat ∧ a.toNat < 0x6000) ∧ s.lifecycle = .on ∧
      t = s.respond (.byte (s.memByte (a.toNat - 0x2000))) := by
  unfold execMemrdMirror
  rcases decodeAddr_cases a with ⟨h, e⟩ | ⟨h, h', e⟩ | ⟨h, h', e⟩ | ⟨h, e⟩ <;> rw [e] <;> simp <;> omega

theorem execMemrdOob_next {a : Addr} : execMemrdOob a s = .next t ↔
    0x6000 ≤ a.toNat ∧ s.lifecycle = .on ∧ t = (s.emit [.diag .rdOob a]).respond (.byte 0x00) := by
  unfold execMemrdOob
  rcases decodeAddr_cases a with ⟨h, e⟩ | ⟨h, h', e⟩ | ⟨h, h', e⟩ | ⟨h, e⟩ <;> rw [e] <;> simp <;> omega

theorem execMemwrRom_next {a : Addr} {v : Byte} : execMemwrRom a v s = .next t ↔
    a.toNat < 0x2000 ∧ s.lifecycle = .on ∧ t = (s.emit [.diag .wrRom a]).respond .noData := by
  unfold execMemwrRom
  rcases decodeAddr_cases a with ⟨h, e⟩ | ⟨h, h', e⟩ | ⟨h, h', e⟩ | ⟨h, e⟩ <;> rw [e] <;> simp <;> omega

theorem execMemwrRam_next {a : Addr} {v : Byte} : execMemwrRam a v s = .next t ↔
    (0x2000 ≤ a.toNat ∧ a.toNat < 0x4000) ∧ s.lifecycle = .on ∧ t = (s.writeMem a.toNat v).respond .noData := by
  unfold execMemwrRam
  rcases decodeAddr_cases a with ⟨h, e⟩ | ⟨h, h', e⟩ | ⟨h, h', e⟩ | ⟨h, e⟩ <;> rw [e] <;> simp <;> omega

theorem execMemwrMirror_next {a : Addr} {v : Byte} : execMemwrMirror a v s = .next t ↔
    (0x4000 ≤ a.toNat ∧ a.toNat < 0x6000) ∧ s.lifecycle = .on ∧
      t = (s.writeMem (a.toNat - 0x2000) v).respond .noData := by
  unfold execMemwrMirror
  rcases decodeAddr_cases a with ⟨h, e⟩ | ⟨h, h', e⟩ | ⟨h, h', e⟩ | ⟨h, e⟩ <;> rw [e] <;> simp <;> omega

theorem execMemwrOob_next {a : Addr} {v : Byte} : execMemwrOob a v s = .next t ↔
    0x6000 ≤ a.toNat ∧ s.lifecycle = .on ∧ t = (s.emit [.diag .wrOob a]).respond .noData := by
  unfold execMemwrOob
  rcases decodeAddr_cases a with ⟨h, e⟩ | ⟨h, h', e⟩ | ⟨h, h', e⟩ | ⟨h, e⟩ <;> rw [e] <;> simp <;> omega

/-! ## Devices (spec/41_port_io.md) -/

theorem execIn0_next : execIn0 s = .next t ↔ s.lifecycle = .on ∧ t = in0With Config.params s := acceptIf_next

theorem execIn1_next : execIn1 s = .next t ↔ s.lifecycle = .on ∧ t = in1With Config.params s := acceptIf_next

theorem execIn2_next : execIn2 s = .next t ↔ s.lifecycle = .on ∧ t = in2With Config.params s := acceptIf_next

theorem execIn3_next : execIn3 s = .next t ↔
    s.lifecycle = .on ∧ t = s.respond (.byte (shiftWindow s.srHigh s.srLow s.srOffset)) := acceptIf_next

theorem execInUnmapped_next {n : Device} : execInUnmapped n s = .next t ↔
    4 ≤ n.toNat ∧ s.lifecycle = .on ∧ t = s.respond (.byte 0x00) := by
  unfold execInUnmapped
  split <;> simp [*]

theorem execOut2_next {v : Byte} : execOut2 v s = .next t ↔
    s.lifecycle = .on ∧ t = { s with srOffset := v.setWidth 3 }.respond .noData := acceptIf_next

theorem execOut3_next {v : Byte} : execOut3 v s = .next t ↔
    s.lifecycle = .on ∧ t = out3With Config.params v s := acceptIf_next

theorem execOut4_next {v : Byte} : execOut4 v s = .next t ↔
    s.lifecycle = .on ∧ t = { s with srLow := s.srHigh, srHigh := v }.respond .noData := acceptIf_next

theorem execOut5_next {v : Byte} : execOut5 v s = .next t ↔
    s.lifecycle = .on ∧ t = out5With Config.params v s := acceptIf_next

theorem execOutUnmapped_next {n : Device} {v : Byte} : execOutUnmapped n v s = .next t ↔
    (n.toNat < 2 ∨ 6 ≤ n.toNat) ∧ s.lifecycle = .on ∧ t = s.respond .noData := by
  unfold execOutUnmapped
  split <;> rename_i h <;> simp only [h, acceptIf_next, true_and, false_and, reduceCtorEq]

/-! ## The scheduler (spec/44_tick_scheduler.md) -/

theorem execTick_next {x : BitVec 7} : execTick x s = .next t ↔
    (s.lifecycle = .on ∧ s.phase = .idle) ∧ t = tickWith Config.params x s := acceptIf_next

theorem execStepdone_next {c : BitVec 24} : execStepdone c s = .next t ↔
    (s.lifecycle = .on ∧ s.phase = .stepWait) ∧ t = stepdoneWith Config.params c s := acceptIf_next

/-- What a tick's start can do: nothing but TICKDONE (R192), the first STEP (R194), or an empty tick (R207). -/
theorem tickWith_cases (p : Params) (x : BitVec 7) (s : State) :
    (s.paused = true ∧ tickWith p x s = (s.emit [.tickdone]).respond .noData) ∨
    (s.paused = false ∧ s.cycles ≤ p.cyclesPerTick ∧
      tickWith p x s = { s.emit [.step] with
        input := x, midFired := false, endFired := false, phase := .stepWait, answer := .noData }) ∨
    (s.paused = false ∧ p.cyclesPerTick < s.cycles ∧
      tickWith p x s = { s.emit [.tickdone] with
        input := x, midFired := false, endFired := false, cycles := s.cycles - p.cyclesPerTick, phase := .idle,
        answer := .noData }) := by
  cases hp : s.paused with
  | true => exact .inl ⟨rfl, by simp [tickWith, hp]⟩
  | false =>
    refine .inr ?_
    rw [tickWith, if_neg (by simp [hp])]
    rcases loopTest_cases p { s with input := x, midFired := false, endFired := false } with ⟨h, e⟩ | ⟨h, e⟩
    · exact .inl ⟨rfl, h, by rw [e]; rfl⟩
    · exact .inr ⟨rfl, h, by rw [e]; rfl⟩

/-- A fired flag after its check: set if the check fired, else as before. -/
theorem or_fired (b : Bool) (P : Prop) [Decidable P] : (b || decide P) = if b = false ∧ P then true else b := by
  cases b <;> by_cases h : P <;> simp [h]

/-- What a STEPDONE leaves, field by field, with `n` the count it reaches: the checks run in the order of R198. -/
theorem stepdoneWith_eq (p : Params) (c : BitVec 24) (s : State) (n : Nat) (hn : n = s.cycles + c.toNat) :
    stepdoneWith p c s = { s with
      cycles := if n ≤ p.cyclesPerTick then n else n - p.cyclesPerTick
      phase := if n ≤ p.cyclesPerTick then .stepWait else .idle
      midFired := s.midFired || decide (p.midThreshold ≤ n)
      endFired := s.endFired || decide (p.cyclesPerTick ≤ n)
      fb := if s.endFired = false ∧ p.cyclesPerTick ≤ n then videoFrame p.pixelOn p.pixelOff s.memByte else s.fb
      trace := s.trace ++
        (if s.midFired = false ∧ p.midThreshold ≤ n then [.irq p.midVector] else []) ++
        (if s.endFired = false ∧ p.cyclesPerTick ≤ n then [.irq p.endVector, .frame] else []) ++
        (if n ≤ p.cyclesPerTick then [.step] else [.tickdone])
      answer := .noData } := by
  subst hn
  rw [or_fired, or_fired]
  by_cases hm : s.midFired = false ∧ p.midThreshold ≤ s.cycles + c.toNat <;>
  by_cases he : s.endFired = false ∧ p.cyclesPerTick ≤ s.cycles + c.toNat <;>
  by_cases hb : s.cycles + c.toNat ≤ p.cyclesPerTick <;>
  simp only [stepdoneWith, midCheck, endCheck, loopTest, tickEnd, videoConvert, State.assertInterrupt, State.emit,
    State.respond, hm, he, hb, if_true, if_false, and_self, List.append_assoc, List.nil_append, List.cons_append,
    List.append_nil] <;>
  rfl

/-! ## Control (spec/46_control.md) -/

theorem execSetup_next {x : BitVec 2} {e c : Bool} : execSetup x e c s = .next t ↔
    s.lifecycle = .off ∧
      t = setupWith (Config.srInit (s.allocDraws + 1)) (Config.allocDraw (s.allocDraws + 1)) x e c s := acceptIf_next

/-- What SETUP can do: name the first bad image, fail to allocate, or bring the machine up. -/
theorem setupWith_cases (sr : ShiftInit) (draw : AllocDraw) (x : BitVec 2) (e c : Bool) (s : State) :
    (∃ status, romError 0 s.romPort.list = some status ∧
      setupWith sr draw x e c s = s.respond (.byte status)) ∨
    (romError 0 s.romPort.list = none ∧ draw = .memoryFails ∧
      setupWith sr draw x e c s = { s with allocDraws := s.allocDraws + 1 }.respond (.byte 0x30)) ∨
    (romError 0 s.romPort.list = none ∧ draw = .displayFails ∧
      setupWith sr draw x e c s = { s with allocDraws := s.allocDraws + 1 }.respond (.byte 0x31)) ∨
    (romError 0 s.romPort.list = none ∧ draw = .ok ∧
      setupWith sr draw x e c s =
        (bringUp sr x e c { s with allocDraws := s.allocDraws + 1 }).respond (.byte 0x00)) := by
  unfold setupWith
  cases h : romError 0 s.romPort.list with
  | some status => exact .inl ⟨status, rfl, rfl⟩
  | none => cases draw <;> simp

theorem execShutdown_next : execShutdown s = .next t ↔
    (s.lifecycle = .on ∧ s.phase = .idle) ∧ t = (tearDown s).respond .noData := acceptIf_next

theorem execPause_next {p : Bool} : execPause p s = .next t ↔
    s.phase = .idle ∧ t = { s with paused := p }.respond .noData := acceptIf_next

theorem execFbrd_next {p : BitVec 16} : execFbrd p s = .next t ↔
    p.toNat < 0xE000 ∧ (s.lifecycle = .on ∧ s.phase = .idle) ∧ t = s.respond (.pixel (s.fbPixel p.toNat)) := by
  unfold execFbrd
  split <;> simp [*]

/-- No instruction faults (spec/93_implementation_defined.md section 1). -/
theorem exec_ne_fault (i : Instr) (s : State) (r : Fault) : exec i s ≠ .fault r := nomatch r

end Sys2Proof.Machine
end

