-- ==== Sys2Proof/Laws/PerInstr.lean ====
section
/-! SUPPORT. The statements made of every instruction, one lemma for each constructor. -/

/-! ## The header of an instruction's word (spec/30_encoding.md R80, R81, R90) -/

namespace Sys2Proof.Laws.EncodedHeader

/-- The OP value of an instruction: R81's for a transaction, R90's for an event. -/
def opcode : Instr → BitVec 4
  | .memrdRom _ | .memrdRam _ | .memrdMirror _ | .memrdOob _ => 0x0
  | .memwrRom _ _ | .memwrRam _ _ | .memwrMirror _ _ | .memwrOob _ _ => 0x1
  | .in0 | .in1 | .in2 | .in3 | .inUnmapped _ => 0x2
  | .out2 _ | .out3 _ | .out4 _ | .out5 _ | .outUnmapped _ _ => 0x3
  | .tick _ => 0x4
  | .pause _ => 0x5
  | .setup _ _ _ => 0x6
  | .shutdown => 0x7
  | .fbrd _ => 0x8
  | .stepdone _ => 0x9
  | .evtStep => 0x0
  | .evtIrq _ => 0x1
  | .evtPlay _ _ => 0x2
  | .evtStop _ => 0x3
  | .evtFrame => 0x4
  | .evtTickdone => 0x5
  | .evtDiag _ _ => 0x6

/-- The word carries the instruction's OP, and its reserved field is 0. -/
def Statement (i : Instr) : Prop := fieldOp (encode i) = opcode i ∧ fieldRsv (encode i) = 0#4

/-- Every word is packed from its fields. -/
theorem of_packWord {i : Instr} {d : Byte} {a : Addr} (h : encode i = packWord (opcode i) d a) : Statement i := by
  unfold Statement
  rw [h, fieldOp_packWord, fieldRsv_packWord]
  exact ⟨rfl, rfl⟩

theorem memrdRom (a : Addr) : Statement (.memrdRom a) := of_packWord rfl
theorem memrdRam (a : Addr) : Statement (.memrdRam a) := of_packWord rfl
theorem memrdMirror (a : Addr) : Statement (.memrdMirror a) := of_packWord rfl
theorem memrdOob (a : Addr) : Statement (.memrdOob a) := of_packWord rfl
theorem memwrRom (a : Addr) (v : Byte) : Statement (.memwrRom a v) := of_packWord rfl
theorem memwrRam (a : Addr) (v : Byte) : Statement (.memwrRam a v) := of_packWord rfl
theorem memwrMirror (a : Addr) (v : Byte) : Statement (.memwrMirror a v) := of_packWord rfl
theorem memwrOob (a : Addr) (v : Byte) : Statement (.memwrOob a v) := of_packWord rfl
theorem in0 : Statement .in0 := of_packWord rfl
theorem in1 : Statement .in1 := of_packWord rfl
theorem in2 : Statement .in2 := of_packWord rfl
theorem in3 : Statement .in3 := of_packWord rfl
theorem inUnmapped (n : Device) : Statement (.inUnmapped n) := of_packWord rfl
theorem out2 (v : Byte) : Statement (.out2 v) := of_packWord rfl
theorem out3 (v : Byte) : Statement (.out3 v) := of_packWord rfl
theorem out4 (v : Byte) : Statement (.out4 v) := of_packWord rfl
theorem out5 (v : Byte) : Statement (.out5 v) := of_packWord rfl
theorem outUnmapped (n : Device) (v : Byte) : Statement (.outUnmapped n v) := of_packWord rfl
theorem tick (x : BitVec 7) : Statement (.tick x) := of_packWord rfl
theorem pause (p : Bool) : Statement (.pause p) := of_packWord rfl
theorem setup (x : BitVec 2) (e c : Bool) : Statement (.setup x e c) := of_packWord rfl
theorem shutdown : Statement .shutdown := of_packWord rfl
theorem fbrd (p : BitVec 16) : Statement (.fbrd p) := of_packWord rfl
theorem stepdone (c : BitVec 24) : Statement (.stepdone c) := of_packWord rfl
theorem evtStep : Statement .evtStep := of_packWord rfl
theorem evtIrq (v : Byte) : Statement (.evtIrq v) := of_packWord rfl
theorem evtPlay (c : Cue) (l : Bool) : Statement (.evtPlay c l) := of_packWord rfl
theorem evtStop (c : Cue) : Statement (.evtStop c) := of_packWord rfl
theorem evtFrame : Statement .evtFrame := of_packWord rfl
theorem evtTickdone : Statement .evtTickdone := of_packWord rfl
theorem evtDiag (c : DiagCode) (a : Addr) : Statement (.evtDiag c a) := of_packWord rfl

end Sys2Proof.Laws.EncodedHeader
end

