-- ==== Sys2Proof/Laws/Step.lean ====
section
/-! SUPPORT. What one step can do: wait, refuse an illegal word, or run the next request's instruction. -/

namespace Sys2Proof.Machine

/-- With nothing presented, a step waits. -/
theorem step_wait {s : State} (h : s.requests = []) : step s = .next s := by
  simp [step, State.takeRequest, h]

/-- With a legal word presented, a step is its instruction's meaning, where the request has been taken. -/
theorem step_decoded {s : State} {r : Request} {rest : List Request} {i : Instr} (h : s.requests = r :: rest)
    (hi : decode r.word = some i) : step s = exec i { s with requests := rest, romPort := r.roms } := by
  simp [step, State.takeRequest, h, hi]

/-- With an illegal word presented, a step refuses it. -/
theorem step_reserved {s : State} {r : Request} {rest : List Request} (h : s.requests = r :: rest)
    (hw : decode r.word = none) : step s = .refused .reservedEncoding := by
  simp [step, State.takeRequest, h, hw]

/-- A step that answers a next state waited, or ran the instruction of the next request. -/
theorem step_cases {s t : State} (h : step s = .next t) :
    (s.requests = [] ∧ t = s) ∨
    ∃ r rest i, s.requests = r :: rest ∧ decode r.word = some i ∧
      exec i { s with requests := rest, romPort := r.roms } = .next t := by
  cases hr : s.requests with
  | nil =>
    rw [step_wait hr] at h
    cases h
    exact .inl ⟨rfl, rfl⟩
  | cons r rest =>
    cases hw : decode r.word with
    | none =>
      rw [step_reserved hr hw] at h
      cases h
    | some i => exact .inr ⟨r, rest, i, rfl, hw, (step_decoded hr hw).symm.trans h⟩

/-- A word placed as the next one is the instruction that the next step runs, on its caller's turn. -/
theorem step_withFetchWord {s : State} {nbits w : Nat} {i : Instr} (h : decode (tableWord nbits w) = some i) :
    step (s.withFetchWord nbits w) = exec i { s.turnFor i with requests := s.requests, romPort := s.romPort } := by
  unfold State.withFetchWord State.present
  generalize tableWord nbits w = word at h
  simp only [h]
  exact step_decoded (r := ⟨word, s.romPort⟩) rfl h

end Sys2Proof.Machine
end

