-- ==== Sys2Proof/Tests/Slice0.lean ====
section
/-! SUPPORT. The model's own tests. The expected results are those of spec/95_test_vectors.md, by the vectors' own names,
or are worked by hand from the rule named; then, for every obligation with hypotheses, a state and operands that meet
them all (`test_meets_<Name>`). -/

namespace Sys2Proof.Tests

open Sys2Proof Sys2Proof.Machine

/-! ## Helpers -/

/-- ON and IDLE, with nothing written. -/
def onIdle : State := { State.reset with lifecycle := .on }

/-- ON, within a tick. -/
def stepping : State := { onIdle with phase := .stepWait }

/-- Within a tick, at a count of cycles. -/
def steppingAt (n : Nat) : State := { stepping with cycles := n }

/-- The parameter values of the test vectors. -/
def tv : Params := Params.testVectors

/-- An image of a length. -/
def imageOf (n : Nat) : List Byte := List.replicate n 0x00

theorem imageOf_length (n : Nat) : (imageOf n).length = n := List.length_replicate

/-- Four good images. -/
def goodRoms : RomImages := ⟨some (imageOf 2048), some (imageOf 2048), some (imageOf 2048), some (imageOf 2048)⟩

theorem goodRoms_ok : romError 0 goodRoms.list = none := by
  simp [goodRoms, RomImages.list, romError, imageOf_length]

theorem goodRoms_images : ∀ r ∈ goodRoms.list, ImageOk r := by
  intro r hr
  simp only [goodRoms, RomImages.list, List.mem_cons, List.not_mem_nil, or_false, or_self] at hr
  exact ⟨imageOf 2048, hr, imageOf_length _⟩

/-- The state an outcome goes on in. -/
def next? : Host.Outcome State Fault Refusal → Option State
  | .next t => some t
  | .fault _ => none
  | .refused _ => none

/-- An outcome is a refusal of the given kind. -/
def refusedWith (r : Refusal) : Host.Outcome State Fault Refusal → Bool
  | .refused r' => r == r'
  | .next _ => false
  | .fault _ => false

/-! ## Ill-formed instructions (spec/30_encoding.md R93, R86) -/

theorem test_wf_refuses_rom : (Instr.memrdRom 0x2000).wellFormed = false ∧
    (Instr.memwrRom 0x2000 0).wellFormed = false ∧ (Instr.memrdRom 0x1FFF).wellFormed = true := by decide

theorem test_wf_refuses_ram : (Instr.memrdRam 0x1FFF).wellFormed = false ∧ (Instr.memrdRam 0x4000).wellFormed = false ∧
    (Instr.memwrRam 0x1FFF 0).wellFormed = false ∧ (Instr.memwrRam 0x4000 0).wellFormed = false := by decide

theorem test_wf_refuses_mirror : (Instr.memrdMirror 0x3FFF).wellFormed = false ∧
    (Instr.memrdMirror 0x6000).wellFormed = false ∧ (Instr.memwrMirror 0x3FFF 0).wellFormed = false ∧
    (Instr.memwrMirror 0x6000 0).wellFormed = false := by decide

theorem test_wf_refuses_oob : (Instr.memrdOob 0x5FFF).wellFormed = false ∧
    (Instr.memwrOob 0x5FFF 0).wellFormed = false := by decide

theorem test_wf_refuses_devices : (Instr.inUnmapped 3).wellFormed = false ∧
    (Instr.outUnmapped 2 0).wellFormed = false ∧ (Instr.outUnmapped 5 0).wellFormed = false ∧
    (Instr.outUnmapped 1 0).wellFormed = true ∧ (Instr.outUnmapped 6 0).wellFormed = true := by decide

theorem test_wf_refuses_pixel : (Instr.fbrd 0xE000).wellFormed = false ∧ (Instr.fbrd 0xDFFF).wellFormed = true := by
  decide

/-- An ill-formed instruction has no meaning either. -/
theorem test_ill_formed_refused : refusedWith .reservedEncoding (exec (.memrdRom 0x2000) onIdle) = true ∧
    refusedWith .reservedEncoding (exec (.outUnmapped 4 0) onIdle) = true ∧
    refusedWith .reservedEncoding (exec (.fbrd 0xE000) onIdle) = true := by decide

/-! ## Words (spec/30_encoding.md R82, R90; spec/95_test_vectors.md part 2, encoding and decoding) -/

theorem test_decode_memory_reads : decodeTableWord 32 0x00000100 = some (.memrdRom 0x0100) ∧
    decodeTableWord 32 0x00002400 = some (.memrdRam 0x2400) ∧
    decodeTableWord 32 0x00005FFF = some (.memrdMirror 0x5FFF) ∧
    decodeTableWord 32 0x00006000 = some (.memrdOob 0x6000) := by decide

theorem test_decode_memory_writes : decodeTableWord 32 0x10FF0100 = some (.memwrRom 0x0100 0xFF) ∧
    decodeTableWord 32 0x10813FFF = some (.memwrRam 0x3FFF 0x81) ∧
    decodeTableWord 32 0x105A4400 = some (.memwrMirror 0x4400 0x5A) ∧
    decodeTableWord 32 0x10127FFF = some (.memwrOob 0x7FFF 0x12) := by decide

theorem test_decode_device_reads : decodeTableWord 32 0x20000000 = some .in0 ∧
    decodeTableWord 32 0x20000001 = some .in1 ∧ decodeTableWord 32 0x20000002 = some .in2 ∧
    decodeTableWord 32 0x20000003 = some .in3 ∧ decodeTableWord 32 0x20000004 = some (.inUnmapped 4) := by decide

theorem test_decode_device_writes : decodeTableWord 32 0x30040002 = some (.out2 0x04) ∧
    decodeTableWord 32 0x30010003 = some (.out3 0x01) ∧ decodeTableWord 32 0x30FF0004 = some (.out4 0xFF) ∧
    decodeTableWord 32 0x30110005 = some (.out5 0x11) ∧ decodeTableWord 32 0x30120000 = some (.outUnmapped 0 0x12) ∧
    decodeTableWord 32 0x30FF00FF = some (.outUnmapped 0xFF 0xFF) := by decide

theorem test_decode_control : decodeTableWord 32 0x4000007F = some (.tick 0x7F) ∧
    decodeTableWord 32 0x50000001 = some (.pause true) ∧
    decodeTableWord 32 0x6000000F = some (.setup 3 true true) ∧
    decodeTableWord 32 0x60000005 = some (.setup 1 true false) ∧ decodeTableWord 32 0x70000000 = some .shutdown ∧
    decodeTableWord 32 0x8000DFFF = some (.fbrd 57343) ∧
    decodeTableWord 32 0x90FFFFFF = some (.stepdone 16777215) ∧
    decodeTableWord 32 0x90000000 = some (.stepdone 0) := by decide

theorem test_decode_reserved : ([0x0A000000, 0xA0000000, 0xF0000000, 0x00010000, 0x20000100, 0x30000100, 0x40000080,
    0x50000002, 0x60000010, 0x70000001, 0x8000E000] : List Word).all (fun w => (decode w).isNone) = true := by decide

/-- The event words of the same file. -/
theorem test_event_words : Event.step.word = 0x00000000 ∧ (Event.irq 0xCF).word = 0x10CF0000 ∧
    (Event.irq 0xD7).word = 0x10D70000 ∧ (Event.play .ufo true).word = 0x20000010 ∧
    (Event.play .coin false).word = 0x20000009 ∧ (Event.stop .ufo).word = 0x30000000 ∧
    Event.frame.word = 0x40000000 ∧ Event.tickdone.word = 0x50000000 ∧
    (Event.diag .wrRom 0x0100).word = 0x60030100 := by decide

theorem test_decode_events : decodeEvent 0x00000000 = some .evtStep ∧ decodeEvent 0x10CF0000 = some (.evtIrq 0xCF) ∧
    decodeEvent 0x20000010 = some (.evtPlay .ufo true) ∧ decodeEvent 0x30000000 = some (.evtStop .ufo) ∧
    decodeEvent 0x40000000 = some .evtFrame ∧ decodeEvent 0x50000000 = some .evtTickdone ∧
    decodeEvent 0x60030100 = some (.evtDiag .wrRom 0x0100) ∧ decodeEvent 0x70000000 = none ∧
    decodeEvent 0x2000000A = none ∧ decodeEvent 0x60040100 = none := by decide

/-- R91's and R92's lines. -/
theorem test_assembler : (AsmLine.wr 0x4400 0x5A).assemble.map encode = some 0x105A4400 ∧
    (AsmLine.tickNames [.credit]).assemble.map encode = some 0x40000020 ∧
    (AsmLine.shift 0xF0).assemble.map encode = some 0x30F00004 ∧
    (AsmLine.shread).assemble.map encode = some 0x20000003 ∧
    (AsmLine.fbrdXY 255 223).assemble.map encode = some 0x8000DFFF ∧ (AsmLine.fbrdXY 0 224).assemble = none := by decide

/-! ## Memory (vectors M1 to M12) -/

/-- The vectors' start: two ROM bytes, and here one RAM byte. -/
def romState : State := { onIdle with mem := [(0x0100, 0x3E), (0x1FFF, 0xC9), (0x3FFF, 0x81)] }

theorem test_M1_M2 : (next? (exec (.memrdRom 0x0100) romState)).map State.answer = some (.byte 0x3E) ∧
    (next? (exec (.memrdRom 0x1FFF) romState)).map State.answer = some (.byte 0xC9) := by decide

theorem test_M3 : (next? (exec (.memwrRom 0x1FFF 0x00) romState)).map (fun t => (t.mem, t.trace, t.answer)) =
    some (romState.mem, [.diag .wrRom 0x1FFF], .noData) := by decide

theorem test_M5 : (next? (exec (.memwrRam 0x2000 0x11) romState)).map State.mem =
    some [(0x0100, 0x3E), (0x1FFF, 0xC9), (0x2000, 0x11), (0x3FFF, 0x81)] := by decide

theorem test_M8 : (next? (exec (.memrdMirror 0x5FFF) romState)).map State.answer = some (.byte 0x81) ∧
    (next? (exec (.memrdRam 0x3FFF) romState)).map State.answer = some (.byte 0x81) := by decide

theorem test_M9 : (next? (exec (.memwrMirror 0x43FF 0x22) romState)).map State.mem =
    some [(0x0100, 0x3E), (0x1FFF, 0xC9), (0x23FF, 0x22), (0x3FFF, 0x81)] := by decide

theorem test_M11 : (next? (exec (.memrdOob 0x6000) romState)).map (fun t => (t.answer, t.trace)) =
    some (.byte 0x00, [.diag .rdOob 0x6000]) := by decide

theorem test_M12 : (next? (exec (.memwrOob 0x8000 0x55) romState)).map (fun t => (t.mem, t.trace)) =
    some (romState.mem, [.diag .wrOob 0x8000]) := by decide

/-! ## Devices (vectors D2 to D14, S2 to S10) -/

/-- ON and IDLE with an INPUT. -/
def withInput (x : BitVec 7) : State := { onIdle with input := x }

theorem test_D2_D3_D13 : (in1With tv (withInput 0x00)).answer = .byte 0x08 ∧
    (in1With tv (withInput 0x05)).answer = .byte 0x38 ∧ (in1With tv (withInput 0x18)).answer = .byte 0x0E ∧
    (in1With tv (withInput 0x18)).trace = [] := by decide

theorem test_D4_D5 : (in1With tv (withInput 0x20)).answer = .byte 0x09 ∧
    (in1With tv (withInput 0x20)).trace = [.play .coin false] ∧ (in1With tv (withInput 0x20)).creditPrev = true ∧
    (in1With tv (in1With tv (withInput 0x20))).trace = [.play .coin false] := by decide

theorem test_D9_D10 :
    (in2With tv { withInput 0x05 with dipShips := 1, dipExtra := true }).answer = .byte 0x39 ∧
    (in2With tv { withInput 0x7F with dipShips := 3, dipExtra := true, dipCoin := true }).answer = .byte 0xFF := by
  decide

theorem test_D11_D12 : (in2With tv (withInput 0x00)).answer = .byte 0x00 ∧
    (in2With tv (withInput 0x40)).answer = .byte 0x04 := by decide

theorem test_D14 : (next? (exec (.inUnmapped 0x04) onIdle)).map (fun t => (t.answer, t.trace)) =
    some (.byte 0x00, []) ∧ next? (exec (.inUnmapped 0xFF) { onIdle with answer := .byte 0 }) =
    some { onIdle with answer := .byte 0 } := by decide

theorem test_S2 : (List.range 8).map (fun k => shiftWindow 0xAB 0xCD (BitVec.ofNat 3 k)) =
    [0xAB, 0x57, 0xAF, 0x5E, 0xBC, 0x79, 0xF3, 0xE6] := by decide

theorem test_S3_S4 : (next? (exec (.out2 0x08) stepping)).map State.srOffset = some 0 ∧
    (next? (exec (.out2 0xFF) stepping)).map State.srOffset = some 7 := by decide

/-- W4: after 0xFF, then 0x00, then offset 4, the window is 0x0F. -/
theorem test_W4 : (next? (exec (.out4 0x00) { onIdle with srHigh := 0xFF })).map (fun t => (t.srHigh, t.srLow)) =
    some (0x00, 0xFF) ∧
    (next? (exec .in3 { onIdle with srLow := 0xFF, srOffset := 4 })).map State.answer = some (.byte 0x0F) := by decide

theorem test_S10 : next? (exec (.outUnmapped 6 0xFF) onIdle) = some onIdle ∧
    next? (exec (.outUnmapped 0 0x12) onIdle) = some onIdle := by decide

/-! ## Sound (vectors A1 to B5) -/

theorem test_A4_A8_A9 : edgeCommands tv.cueMap3 0x00 0xFF =
    [.play .ufo true, .play .fire false, .play .explosion false, .play .invaderDie false] ∧
    edgeCommands tv.cueMap3 0x0E 0x0D = [.play .ufo true] ∧
    edgeCommands tv.cueMap3 0x01 0x02 = [.stop .ufo, .play .fire false] := by decide

theorem test_A2_A3_A6 : (out3With tv 0x01 { onIdle with latch3 := 0x01 }).trace = [] ∧
    (out3With tv 0x00 { onIdle with latch3 := 0x01 }).trace = [.stop .ufo] ∧
    (out3With tv 0xF0 { onIdle with latch5 := 0x33 }).trace = [] ∧
    (out3With tv 0xF0 { onIdle with latch5 := 0x33 }).latch3 = 0xF0 ∧
    (out3With tv 0xF0 { onIdle with latch5 := 0x33 }).latch5 = 0x33 := by decide

theorem test_B1_B2_B3 : (out5With tv 0x0F onIdle).trace =
    [.play .fleet1 false, .play .fleet2 false, .play .fleet3 false, .play .fleet4 false] ∧
    (out5With tv 0x1F { onIdle with latch5 := 0x0F }).trace = [.play .ufoHit false] ∧
    (out5With tv 0x00 { onIdle with latch5 := 0x1F }).trace = [] := by decide

/-! ## The scheduler (vectors V-S2, V-S3, V-S7, V-S9) -/

theorem test_VS9 : let t := stepdoneWith tv 4 (steppingAt 48)
    t.trace = [.irq 0xCF, .step] ∧ t.trace.map Event.word = [0x10CF0000, 0x00000000] ∧ t.cycles = 52 ∧
    t.midFired = true ∧ t.endFired = false ∧ t.phase = .stepWait := by decide

/-- V-S2's step 10: the count reaches the budget exactly, so both end-frame events go and one more step is asked for.
The frame itself is 57344 pixels, which `test_W7` looks at. -/
theorem test_VS2 : let s := { steppingAt 90 with midFired := true }
    (stepdoneWith tv 10 s).trace = [.irq 0xD7, .frame, .step] ∧ (stepdoneWith tv 10 s).cycles = 100 ∧
    (stepdoneWith tv 10 s).phase = .stepWait := by
  refine ⟨?_, ?_, ?_⟩ <;> rw [stepdoneWith_eq _ _ _ _ rfl] <;> decide

theorem test_VS3 : (tickWith tv 0 { onIdle with cycles := 150 }).trace = [.tickdone] ∧
    (tickWith tv 0 { onIdle with cycles := 150 }).cycles = 50 ∧
    (tickWith tv 0 { onIdle with cycles := 150 }).phase = .idle := by decide

theorem test_VS7 : let s := { onIdle with cycles := 37, midFired := true, input := 0x01 }
    tickWith tv 0x7F { s with paused := true } = { s with paused := true, trace := [.tickdone] } ∧
    tickWith tv 0x7F s =
      { s with input := 0x7F, midFired := false, phase := .stepWait, trace := [.step] } := by decide

/-! ## Video (W7 and the video table) -/

/-- W7: 0xB0 at the start of a row. -/
theorem test_W7 : byteLanes 1 0 0xB0 = [1, 0, 1, 1, 0, 0, 0, 0] := by decide

/-- The last byte of video RAM gives the last eight pixels, and pixel 256 comes from the second row's first byte. -/
theorem test_video_places : (videoFrame 1 0 (fun k => if k = 0x3FFF then 0xFF else 0))[57336]? = some 1 ∧
    (videoFrame 1 0 (fun k => if k = 0x2420 then 0x80 else 0))[256]? = some 1 := by
  refine ⟨?_, ?_⟩ <;> rw [videoFrame_get _ _ _ _ (by decide)] <;> decide

/-! ## Control (vectors C1 to C8) -/

theorem test_C1_C8 : let t := setupWith ⟨1, 2, 3⟩ .ok 2 true false { State.reset with romPort := goodRoms, paused := true }
    t.answer = .byte 0x00 ∧ t.lifecycle = .on ∧ t.phase = .idle ∧ t.paused = true ∧ t.srLow = 1 ∧ t.srHigh = 2 ∧
    t.srOffset = 3 ∧ t.dipShips = 2 ∧ t.dipExtra = true ∧ t.dipCoin = false := by
  simp [setupWith, goodRoms_ok, bringUp, State.reset]

theorem test_C2_C3_C4 : romError 0 [none, some (imageOf 2048), none, none] = some 0x10 ∧
    romError 0 [some (imageOf 2048), some (imageOf 2048), some (imageOf 2047), none] = some 0x22 ∧
    romError 0 [some (imageOf 2048), none, some (imageOf 2048), some (imageOf 2049)] = some 0x11 := by
  simp [romError, imageOf_length]

theorem test_C5 : setupWith ⟨0, 0, 0⟩ .displayFails 0 false false { State.reset with romPort := goodRoms } =
    { State.reset with romPort := goodRoms, answer := .byte 0x31, allocDraws := 1 } := by
  simp [setupWith, goodRoms_ok, State.reset, State.respond]

theorem test_C6 : (next? (exec .shutdown { onIdle with paused := true, latch3 := 5 })).map
    (fun t => (t.lifecycle, t.paused, t.latch3)) = some (.off, true, 0) := by decide

theorem test_pause : (next? (exec (.pause true) State.reset)).map State.paused = some true ∧
    refusedWith .wrongState (exec (.pause true) stepping) = true := by decide

theorem test_fbrd : (next? (exec (.fbrd 1) { onIdle with fb := [7, 9] })).map State.answer = some (.pixel 9) := by decide

theorem test_acceptance : refusedWith .wrongState (exec (.tick 0) State.reset) = true ∧
    refusedWith .wrongState (exec (.memrdRam 0x2000) State.reset) = true ∧
    refusedWith .wrongState (exec (.stepdone 4) onIdle) = true ∧
    refusedWith .wrongState (exec (.setup 0 false false) onIdle) = true ∧
    refusedWith .wrongState (exec (.fbrd 0) stepping) = true ∧
    refusedWith .wrongState (exec .shutdown stepping) = true := by decide

/-! ## The step -/

/-- The word of `pause 1`, placed to run first after reset. -/
theorem test_withFetchWord : (next? (step (State.reset.withFetchWord 32 0x50000001))).map State.paused = some true := by
  decide

/-- An event row's meaning, by R11's `emit`. -/
theorem test_event_row : next? (exec (.evtIrq 0xCF) stepping) = some { stepping with trace := [.irq 0xCF] } := by decide

/-! ## Hypotheses that can be met: encoding and the step -/

/-- A state with one word presented. -/
def presented (word : Word) : State := { State.reset with requests := [⟨word, .missing⟩] }

/-- Words of RowPatterns' clauses at the ends of their ranges. -/
theorem test_meets_RowPatterns : ([0x00001FFF, 0x00002000, 0x00003FFF, 0x00004000, 0x00005FFF, 0x00006000, 0x0000FFFF,
    0x10FF1FFF, 0x10FF2000, 0x10FF5FFF, 0x10FF6000, 0x20000003, 0x20000004, 0x200000FF, 0x30FF0001, 0x30FF0005,
    0x30FF0006, 0x30FF00FF, 0x4000007F, 0x50000001, 0x6000000F, 0x70000000, 0x8000DFFF, 0x90FFFFFF] : List Word).all
    (fun w => fieldRsv w == 0 && (decode w).isSome) = true := by decide

theorem test_meets_TransactionRoundTrip :
    (Instr.memrdMirror 0x5FFF).wellFormed = true ∧ (Instr.memrdMirror 0x5FFF).isEvent = false := by decide

theorem test_meets_DecodedWordReencodes : decode 0x8000DFFF = some (.fbrd 0xDFFF) := by decide

theorem test_meets_EventRoundTrip : (Instr.evtPlay .coin false).isEvent = true ∧
    decodeEvent 0x20000009 = some (.evtPlay .coin false) := by decide

theorem test_meets_ReservedWordsRefused : (presented 0x8000E000).requests = [⟨0x8000E000, .missing⟩] ∧
    decode 0x8000E000 = none := by decide

theorem test_meets_StepRunsTheNextRequest : (presented 0x50000001).requests = [⟨0x50000001, .missing⟩] ∧
    decode 0x50000001 = some (.pause true) := by decide

theorem test_meets_StepWaitsForARequest : State.reset.requests = [] := rfl

/-- One instruction that the table accepts, and one that it does not, in each column. -/
theorem test_meets_AcceptanceTable : (Instr.tick 0).wellFormed = true ∧ (Instr.tick 0).isEvent = false ∧
    (State.reset.lifecycle = .off → State.reset.phase = .idle) ∧
    (onIdle.lifecycle = .off → onIdle.phase = .idle) ∧ (stepping.lifecycle = .off → stepping.phase = .idle) ∧
    accepted (.pause true) .off .idle = true ∧ accepted (.tick 0) .off .idle = false ∧
    accepted (.tick 0) .on .idle = true ∧ accepted (.stepdone 4) .on .idle = false ∧
    accepted (.stepdone 4) .on .stepWait = true ∧ accepted .shutdown .on .stepWait = false := by decide

theorem test_meets_PowerOn : (Instr.pause true).isEvent = false ∧ (Instr.setup 0 false false).isEvent = false ∧
    (∃ t, exec (.pause true) State.reset = .next t) ∧ (∃ t, exec (.setup 0 false false) State.reset = .next t) :=
  ⟨rfl, rfl, ⟨_, rfl⟩, ⟨_, rfl⟩⟩

/-! ## Memory -/

/-- Each region of AddressDecoder, at both its ends. -/
theorem test_meets_AddressDecoder : decodeAddr 0x0000 = .rom 0 ∧ decodeAddr 0x1FFF = .rom 0x1FFF ∧
    decodeAddr 0x2000 = .ram 0x2000 ∧ decodeAddr 0x3FFF = .ram 0x3FFF ∧ decodeAddr 0x4000 = .mirror 0x2000 ∧
    decodeAddr 0x5FFF = .mirror 0x3FFF ∧ decodeAddr 0x6000 = .oob ∧ decodeAddr 0xFFFF = .oob := by decide

theorem test_meets_MemoryReads : onIdle.lifecycle = .on ∧ (0x1FFF : Addr).toNat < 0x2000 ∧
    0x2000 ≤ (0x2000 : Addr).toNat ∧ (0x3FFF : Addr).toNat < 0x4000 ∧ 0x4000 ≤ (0x4000 : Addr).toNat ∧
    (0x5FFF : Addr).toNat < 0x6000 := by decide

theorem test_meets_OutOfBounds : onIdle.lifecycle = .on ∧ 0x6000 ≤ (0x6000 : Addr).toNat := by decide

theorem test_meets_MemoryWrites : stepping.lifecycle = .on ∧ 0x2000 ≤ (0x2000 : Addr).toNat ∧
    (0x2000 : Addr).toNat < 0x4000 ∧ 0x4000 ≤ (0x5FFF : Addr).toNat ∧ (0x5FFF : Addr).toNat < 0x6000 := by decide

theorem test_meets_RomWriteDropped : romState.lifecycle = .on ∧ (0x1FFF : Addr).toNat < 0x2000 := by decide

theorem test_meets_MirrorAlias : 0x4000 ≤ (0x4000 : Addr).toNat ∧ (0x4000 : Addr).toNat < 0x6000 ∧
    (0x2000 : Addr).toNat + 0x2000 = (0x4000 : Addr).toNat ∧ (0x5FFF : Addr).toNat < 0x6000 ∧
    (0x3FFF : Addr).toNat + 0x2000 = (0x5FFF : Addr).toNat := by decide

/-- Through both addresses of a byte, with a read and another write between. -/
theorem test_meets_LastWriteIsRead : storeIndex (.memwrMirror 0x4400 0x5A) = some 0x2400 ∧
    storeIndex (.memwrRam 0x2400 0x5A) = some 0x2400 ∧
    (∀ j ∈ [Instr.memrdRam 0x2400, .memwrRam 0x2401 7], isTickWork j = true ∧ storeIndex j ≠ some 0x2400) ∧
    (∃ t u, exec (.memwrMirror 0x4400 0x5A) onIdle = .next t ∧
      runInstrs [.memrdRam 0x2400, .memwrRam 0x2401 7] t = .next u) ∧
    (∃ t, exec (.memwrRam 0x2400 0x5A) onIdle = .next t) :=
  ⟨rfl, rfl, by decide, ⟨_, _, rfl, rfl⟩, ⟨_, rfl⟩⟩

theorem test_meets_RomKeptUntilShutdown : romState.lifecycle = .on ∧
    Instr.shutdown ∉ [Instr.memwrRom 0x0100 0xFF, .memrdRom 0x0100] ∧
    ∃ t, runInstrs [.memwrRom 0x0100 0xFF, .memrdRom 0x0100] romState = .next t := ⟨rfl, by decide, ⟨_, rfl⟩⟩

theorem test_meets_OnlyStoresChangeMemory : (∃ t, exec (.memwrRam 0x2000 1) onIdle = .next t) ∧
    storeIndex (.memwrRam 0x2000 1) ≠ some 0x2001 ∧ Instr.memwrRam 0x2000 1 ≠ .shutdown ∧
    ∀ x e c, Instr.memwrRam 0x2000 1 ≠ .setup x e c := ⟨⟨_, rfl⟩, by decide, by decide, by simp⟩

theorem test_meets_MemoryTransactionsEmitOnlyDiag : (∃ t, exec (.memrdOob 0x6000) onIdle = .next t) ∧
    (∃ t, exec (.memwrRam 0x2000 1) onIdle = .next t) := ⟨⟨_, rfl⟩, ⟨_, rfl⟩⟩

/-! ## Devices -/

/-- StatusRead, DipRead, ShiftRead, ShiftWrites, ShiftAndOffsetCommute, SpriteShiftSequence and SoundWrites ask for ON
alone. -/
theorem test_meets_device_statements : onIdle.lifecycle = .on ∧ stepping.lifecycle = .on := by decide

/-- Device 1's word always has a bit that P1_MAP does not name. -/
theorem test_meets_ControlsRead : onIdle.lifecycle = .on ∧ ∃ j : Fin 8, j ∉ Config.params.p1Map.bits := by
  refine ⟨rfl, ?_⟩
  by_contra h
  push Not at h
  have h8 : (Finset.univ : Finset (Fin 8)).card ≤ Config.params.p1Map.bits.toFinset.card :=
    Finset.card_le_card (fun j _ => List.mem_toFinset.mpr (h j))
  have h7 : Config.params.p1Map.bits.toFinset.card ≤ 7 := List.toFinset_card_le _
  simp at h8
  omega

theorem test_meets_ControlsReadIdempotent : ∃ t, exec .in1 (withInput 0x20) = .next t := ⟨_, rfl⟩

theorem test_meets_UnmappedDevices : onIdle.lifecycle = .on ∧ 4 ≤ (4 : Device).toNat ∧ (1 : Device).toNat < 2 ∧
    6 ≤ (6 : Device).toNat := by decide

theorem test_meets_RepeatedWritesAreNoOps : (∃ t, exec (.out2 5) onIdle = .next t) ∧
    (∃ t, exec (.out3 5) onIdle = .next t) ∧ (∃ t, exec (.out5 5) onIdle = .next t) :=
  ⟨⟨_, rfl⟩, ⟨_, rfl⟩, ⟨_, rfl⟩⟩

/-- Runs of writes, and a mapped bit on each device, UFO's among them. -/
theorem test_meets_CuesPlayOncePerRisingEdge :
    (∃ t, runInstrs ([0x01, 0x01, 0x00].map .out3) onIdle = .next t) ∧
    (∃ t, runInstrs ([0x0F, 0x1F].map .out5) onIdle = .next t) ∧
    (∃ i : Nat, Config.params.cueMap3[i]? = some (some .ufo)) ∧
    (∃ i : Nat, Config.params.cueMap5[i]? = some (some .fleet1)) := by
  refine ⟨⟨_, rfl⟩, ⟨_, rfl⟩, ?_, ?_⟩
  · exact List.getElem?_of_mem (List.count_pos_iff.mp
      (by rw [Config.cueMap3_legal.2.1 .ufo (by decide)]; exact Nat.one_pos))
  · exact List.getElem?_of_mem (List.count_pos_iff.mp
      (by rw [Config.cueMap5_legal.2.1 .fleet1 (by decide)]; exact Nat.one_pos))

/-! ## The tick loop -/

/-- The budget of the machine. -/
def budget : Nat := Config.params.cyclesPerTick

/-- Between ticks, with a carry of exactly the budget, so that one step of cost 1 ends the next tick. -/
def carrying : State := { onIdle with cycles := budget }

theorem test_meets_PausedTick : let s := { onIdle with paused := true }
    s.lifecycle = .on ∧ s.phase = .idle ∧ s.paused = true := by decide

/-- Both clauses at the boundary: a carry of the budget, and one more. -/
theorem test_meets_UnpausedTick : carrying.lifecycle = .on ∧ carrying.phase = .idle ∧ carrying.paused = false ∧
    carrying.cycles ≤ Config.params.cyclesPerTick ∧
    Config.params.cyclesPerTick < { carrying with cycles := budget + 1 }.cycles :=
  ⟨rfl, rfl, rfl, Nat.le_refl _, Nat.lt_succ_self _⟩

/-- The clauses of StepDone at their boundaries: a step that reaches the mid-frame threshold, one that reaches the
budget, one that passes it, and one that reaches neither. -/
theorem test_meets_StepDone : (steppingAt 0).lifecycle = .on ∧ (steppingAt 0).phase = .stepWait ∧
    (steppingAt 0).midFired = false ∧ (steppingAt 0).endFired = false ∧
    Config.params.midThreshold ≤ (steppingAt Config.params.midThreshold).cycles + (0 : BitVec 24).toNat ∧
    ¬ Config.params.midThreshold ≤ (steppingAt 0).cycles + (0 : BitVec 24).toNat ∧
    Config.params.cyclesPerTick ≤ (steppingAt budget).cycles + (0 : BitVec 24).toNat ∧
    (steppingAt budget).cycles + (0 : BitVec 24).toNat ≤ Config.params.cyclesPerTick ∧
    Config.params.cyclesPerTick < (steppingAt budget).cycles + (1 : BitVec 24).toNat ∧
    ¬ Config.params.cyclesPerTick ≤ (steppingAt 0).cycles + (0 : BitVec 24).toNat := by
  have hM := Config.midThreshold_pos
  have hB := Config.cyclesPerTick_pos
  refine ⟨rfl, rfl, rfl, rfl, Nat.le_refl _, ?_, Nat.le_refl _, Nat.le_refl _, Nat.lt_succ_self _, ?_⟩
  · exact Nat.not_le.mpr hM
  · exact Nat.not_le.mpr hB

theorem test_meets_ConvertedPixels : (steppingAt budget).lifecycle = .on ∧ (steppingAt budget).phase = .stepWait ∧
    (steppingAt budget).endFired = false ∧
    Config.params.cyclesPerTick ≤ (steppingAt budget).cycles + (0 : BitVec 24).toNat ∧ 255 < 256 ∧ 223 < 224 :=
  ⟨rfl, rfl, rfl, Nat.le_refl _, by decide, by decide⟩

/-- A step of cost 1 at the budget ends the tick, with a carry of 1. -/
theorem last_step {s : State} (hl : s.lifecycle = .on) (hp : s.phase = .stepWait) (hc : s.cycles = budget) :
    ∃ t, exec (.stepdone 1) s = .next t ∧ t.phase = .idle ∧ t.cycles = 1 := by
  refine ⟨_, execStepdone_next.mpr ⟨⟨hl, hp⟩, rfl⟩, ?_⟩
  rw [stepdoneWith_eq _ _ _ _ rfl]
  simp [hc, budget]

/-- A whole tick of one step. -/
theorem one_step_tick : ∃ t, runInstrs [.tick 0x7F, .stepdone 1] carrying = .next t ∧ t.phase = .idle ∧ t.cycles = 1 := by
  have ht : exec (.tick 0x7F) carrying = .next (tickWith Config.params 0x7F carrying) :=
    execTick_next.mpr ⟨⟨rfl, rfl⟩, rfl⟩
  rcases tickWith_cases Config.params 0x7F carrying with ⟨h, -⟩ | ⟨-, -, e⟩ | ⟨-, h, -⟩
  · cases h
  · rw [e] at ht
    obtain ⟨t, h1, h2, h3⟩ := last_step (s := { carrying.emit [.step] with
      input := 0x7F, midFired := false, endFired := false, phase := .stepWait, answer := .noData }) rfl rfl rfl
    exact ⟨t, by simp only [runInstrs, ht, h1], h2, h3⟩
  · exact absurd h (Nat.lt_irrefl _)

theorem test_meets_OneOfEachInterruptPerTick : carrying.lifecycle = .on ∧ carrying.phase = .idle ∧
    carrying.paused = false ∧ carrying.cycles ≤ Config.params.cyclesPerTick ∧
    (∀ i ∈ [Instr.stepdone 1], isCpu i = true) ∧
    ∃ t, runInstrs (.tick 0x7F :: [.stepdone 1]) carrying = .next t ∧ t.phase = .idle := by
  obtain ⟨t, h, h', -⟩ := one_step_tick
  exact ⟨rfl, rfl, rfl, Nat.le_refl _, by decide, t, h, h'⟩

theorem test_meets_CyclesAreAccountedFor : (∀ i ∈ [Instr.tick 0x7F, .stepdone 1], isTickWork i = true) ∧
    carrying.paused = false ∧ ∃ t, runInstrs [.tick 0x7F, .stepdone 1] carrying = .next t := by
  obtain ⟨t, h, -⟩ := one_step_tick
  exact ⟨by decide, rfl, t, h⟩

theorem test_meets_CarryNeverDrifts : (∀ i ∈ [Instr.tick 0x7F, .stepdone 1], isTickWork i = true) ∧
    (∀ c, Instr.stepdone c ∈ [Instr.tick 0x7F, .stepdone 1] → c.toNat ≤ budget + 1) ∧ carrying.phase = .idle ∧
    carrying.cycles ≤ budget + 1 ∧
    ∃ t, runInstrs [.tick 0x7F, .stepdone 1] carrying = .next t ∧ t.phase = .idle := by
  obtain ⟨t, h, h', -⟩ := one_step_tick
  refine ⟨by decide, ?_, rfl, Nat.le_succ _, t, h, h'⟩
  intro c hc
  simp only [List.mem_cons, List.not_mem_nil, or_false, reduceCtorEq, false_or, Instr.stepdone.injEq] at hc
  subst hc
  exact Nat.succ_le_succ (Nat.zero_le _)

theorem test_meets_CarryOfTheLastStep : (steppingAt budget).cycles ≤ Config.params.cyclesPerTick ∧
    ∃ t, exec (.stepdone 1) (steppingAt budget) = .next t ∧ t.phase = .idle := by
  obtain ⟨t, h, h', -⟩ := last_step (s := steppingAt budget) rfl rfl rfl
  exact ⟨Nat.le_refl _, t, h, h'⟩

theorem test_meets_ZeroCostNeverEnds : (steppingAt budget).lifecycle = .on ∧ (steppingAt budget).phase = .stepWait ∧
    (steppingAt budget).cycles ≤ Config.params.cyclesPerTick := ⟨rfl, rfl, Nat.le_refl _⟩

theorem test_meets_BusLeavesTheSchedule : isBus (.out3 0xFF) = true ∧ isBus (.memwrOob 0x6000 1) = true ∧
    (∃ t, exec (.out3 0xFF) stepping = .next t) ∧ (∃ t, exec (.memwrOob 0x6000 1) stepping = .next t) :=
  ⟨rfl, rfl, ⟨_, rfl⟩, ⟨_, rfl⟩⟩

/-- The step of cost 1 at the budget asserts the mid-frame interrupt, among others. -/
theorem test_meets_InterruptsOnlyAtStepDone : (Instr.stepdone 1).isEvent = false ∧
    ∃ t, exec (.stepdone 1) (steppingAt budget) = .next t ∧
      .irq Config.params.midVector ∈ newEvents (steppingAt budget) t := by
  refine ⟨rfl, _, execStepdone_next.mpr ⟨⟨rfl, rfl⟩, rfl⟩, ?_⟩
  have hM : Config.params.midThreshold ≤ (steppingAt budget).cycles + (1 : BitVec 24).toNat :=
    Nat.le_succ_of_le Config.midThreshold_le
  rw [stepdoneWith_eq _ _ _ _ rfl]
  simp only [newEvents]
  rw [if_pos ⟨rfl, hM⟩]
  simp [steppingAt, stepping, onIdle, State.reset]

/-! ## Control -/

theorem test_meets_PauseSetsTheFlag : State.reset.phase = .idle ∧ onIdle.phase = .idle := by decide

theorem test_meets_FrameBufferRead : onIdle.lifecycle = .on ∧ onIdle.phase = .idle ∧
    (0xDFFF : BitVec 16).toNat < 0xE000 := by decide

theorem test_meets_SetupBringsUp : let s := { State.reset with romPort := goodRoms }
    s.lifecycle = .off ∧ ∀ r ∈ s.romPort.list, ImageOk r := ⟨rfl, goodRoms_images⟩

/-- The last image too short, and the first image missing. -/
theorem test_meets_SetupNamesTheFirstBadImage :
    let s := { State.reset with romPort := { goodRoms with image3 := some (imageOf 2047) } }
    s.lifecycle = .off ∧ s.romPort.list[3]? = some (some (imageOf 2047)) ∧ ¬ ImageOk (some (imageOf 2047)) ∧
    (∀ r ∈ s.romPort.list.take 3, ImageOk r) ∧
    State.reset.romPort.list[0]? = some none ∧ ¬ ImageOk none ∧ (∀ r ∈ State.reset.romPort.list.take 0, ImageOk r) := by
  refine ⟨rfl, rfl, ?_, ?_, rfl, ?_, by simp⟩
  · rintro ⟨bytes, h, hlen⟩
    cases h
    rw [imageOf_length] at hlen
    cases hlen
  · intro r hr
    simp only [goodRoms, RomImages.list, List.take_succ_cons, List.take_zero, List.mem_cons, List.not_mem_nil, or_false,
      or_self] at hr
    exact ⟨imageOf 2048, hr, imageOf_length _⟩
  · rintro ⟨bytes, h, -⟩
    cases h

theorem test_meets_ShutdownDestroys : onIdle.lifecycle = .on ∧ onIdle.phase = .idle := by decide

/-- Two OFF states that differ in what stood there before, and an allocation that succeeds. -/
theorem test_meets_SetupStartsFromNothing :
    let s := { State.reset with romPort := goodRoms }
    let u := { State.reset with romPort := goodRoms, latch3 := 0xFF, cycles := 9, mem := [(0x2000, 1)] }
    s.lifecycle = .off ∧ u.lifecycle = .off ∧ u.paused = s.paused ∧ u.trace = s.trace ∧ SameInterface s u ∧
    (setupWith ⟨0, 0, 0⟩ .ok 0 false false s).lifecycle = .on := by
  refine ⟨rfl, rfl, rfl, rfl, ⟨rfl, rfl, rfl⟩, ?_⟩
  simp [setupWith, goodRoms_ok, bringUp]

/-- LIFECYCLE and PAUSED both change somewhere. -/
theorem test_meets_LifecycleAndPauseWriters :
    (∃ t, exec .shutdown onIdle = .next t ∧ t.lifecycle ≠ onIdle.lifecycle) ∧
    (∃ t, exec (.pause true) onIdle = .next t ∧ t.paused ≠ onIdle.paused) :=
  ⟨⟨_, rfl, by decide⟩, ⟨_, rfl, by decide⟩⟩

theorem test_meets_InputsAreFixedWithinATick : Instr.tick 0x7F ≠ .shutdown ∧
    (∀ x e c, Instr.tick 0x7F ≠ .setup x e c) ∧
    ∃ t, exec (.tick 0x7F) carrying = .next t ∧ t.input ≠ carrying.input := by
  refine ⟨by decide, by simp, _, execTick_next.mpr ⟨⟨rfl, rfl⟩, rfl⟩, ?_⟩
  rcases tickWith_cases Config.params 0x7F carrying with ⟨h, -⟩ | ⟨-, -, e⟩ | ⟨-, h, -⟩
  · cases h
  · rw [e]
    simp [carrying, onIdle, State.reset]
  · exact absurd h (Nat.lt_irrefl _)

/-- A conversion that changes pixel 0: its bit of video RAM is 1 and it held PIXEL_OFF. -/
theorem test_meets_FrameBufferWriters :
    let s := { steppingAt budget with mem := [(0x2400, 0x80)], fb := [Config.params.pixelOff] }
    Instr.stepdone 1 ≠ .shutdown ∧ (∀ x e c, Instr.stepdone 1 ≠ .setup x e c) ∧
    ∃ t, exec (.stepdone 1) s = .next t ∧ ¬ SamePixels s t := by
  refine ⟨by decide, by simp, _, execStepdone_next.mpr ⟨⟨rfl, rfl⟩, rfl⟩, ?_⟩
  intro h
  have h0 := h 0
  rw [stepdoneWith_eq _ _ _ _ rfl] at h0
  have hB : Config.params.cyclesPerTick ≤ budget + (1 : BitVec 24).toNat := Nat.le_succ _
  simp only [State.fbPixel] at h0
  rw [if_pos ⟨rfl, hB⟩, videoFrame_get _ _ _ _ (by decide)] at h0
  exact Config.pixels_differ h0

theorem test_meets_FrameBufferShowsOnlyToFbrd : (∀ p, Instr.fbrd p ∉ [Instr.pause true, .tick 0x7F]) ∧
    ∃ t, runInstrs [.pause true, .tick 0x7F] onIdle = .next t := ⟨by simp, ⟨_, rfl⟩⟩

/-! ## Events and the invariant -/

theorem test_meets_TraceOnlyGrows : (∃ t, exec (.memrdOob 0x6000) onIdle = .next t) ∧
    (∃ t, exec (.in1) (withInput 0x20) = .next t) := ⟨⟨_, rfl⟩, ⟨_, rfl⟩⟩

/-- A state within a tick, its ROM loaded, that the invariant holds of; and a step from it. -/
theorem test_meets_StepKeepsInv : let s := { steppingAt 0 with
      mem := romContents goodRoms, requests := [⟨0x90000004, .missing⟩] }
    s.Inv ∧ ∃ t, step s = .next t := by
  refine ⟨⟨romContents_wf goodRoms_ok, fun _ i hi => ?_, .inl rfl, fun _ => Nat.zero_le _,
    fun _ h => absurd h Bool.false_ne_true, fun _ h => absurd h Bool.false_ne_true,
    fun h => absurd h Bool.false_ne_true, fun h => absurd h (by decide)⟩, ?_⟩
  · have hread := read?_romContents goodRoms_ok (k := i / 2048) (j := i % 2048) (by omega) (Nat.mod_lt _ (by decide))
    have hi' : 0x800 * (i / 2048) + i % 2048 = i := Nat.div_add_mod i 2048
    rw [hi'] at hread
    have hmod : i % 2048 < (imageOf 2048).length := by rw [imageOf_length]; exact Nat.mod_lt _ (by decide)
    have hk : goodRoms.list[i / 2048]? = some (some (imageOf 2048)) := by
      have : i / 2048 = 0 ∨ i / 2048 = 1 ∨ i / 2048 = 2 ∨ i / 2048 = 3 := by omega
      rcases this with h | h | h | h <;> rw [h] <;> rfl
    show ((romContents goodRoms).read? i).isSome = true
    rw [hread, hk]
    simp [List.getElem?_eq_getElem hmod]
  · exact ⟨_, (step_decoded rfl (i := .stepdone 4) (by decide)).trans (execStepdone_next.mpr ⟨⟨rfl, rfl⟩, rfl⟩)⟩

end Sys2Proof.Tests
end

section
/-! PROOFS. The family of spec/00_scope.md: what a step runs (R6), and what an instruction adds to the trace (R11, R12).
`emitted` names the events of each instruction once; that the trace only grows, by at most one DIAG, follows from it. -/

namespace Sys2Proof.Machine

/-! ## A step and an event row -/

/-- Settles O8: a step on a legal word, which is the model's own law of the step. -/
theorem stepRunsTheNextRequest : Obligations.StepRunsTheNextRequest :=
  fun _ _ _ _ hr hi => step_decoded hr hi

/-- Settles O55, event by event: each row's meaning is `emit` of its event. -/
theorem eventRowsEmit : Obligations.EventRowsEmit := by
  intro e s
  cases e <;> rfl

/-! ## Events that are no DIAG -/

/-- Leaving out the DIAGs changes nothing exactly where there is none. -/
theorem withoutDiag_eq_self {es : List Event} :
    withoutDiag es = es ↔ ∀ code loc, Event.diag code loc ∉ es := by
  refine List.filter_eq_self.trans ⟨fun h code loc hmem => Bool.false_ne_true (h _ hmem), fun h e he => ?_⟩
  cases e with
  | diag code loc => exact absurd he (h code loc)
  | _ => rfl

@[simp] theorem withoutDiag_creditCommands (previous credit : Bool) :
    withoutDiag (creditCommands previous credit) = creditCommands previous credit := by
  unfold creditCommands
  split <;> rfl

/-- The edge detector commands the sound hardware alone (R172). -/
@[simp] theorem withoutDiag_edgeCommands (map : List (Option Cue)) (old new : Byte) :
    withoutDiag (edgeCommands map old new) = edgeCommands map old new := by
  refine withoutDiag_eq_self.mpr fun code loc he => ?_
  obtain ⟨i, -, c, -, ⟨-, -, h⟩ | ⟨-, -, -, h⟩⟩ := mem_edgeCommands.mp he <;> cases h

/-! ## The events of one instruction -/

/-- The events an instruction that completes in `s` appends to the trace, oldest first. -/
def emitted (s : State) : Instr → List Event
  | .memrdOob a => [.diag .rdOob a]
  | .memwrRom a _ => [.diag .wrRom a]
  | .memwrOob a _ => [.diag .wrOob a]
  | .in1 => creditCommands s.creditPrev (inputCredit s.input)
  | .out3 v => edgeCommands Config.params.cueMap3 s.latch3 v
  | .out5 v => edgeCommands Config.params.cueMap5 s.latch5 v
  | .tick _ => if s.paused = false ∧ s.cycles ≤ Config.params.cyclesPerTick then [.step] else [.tickdone]
  | .stepdone c =>
    let n := s.cycles + c.toNat
    (if s.midFired = false ∧ Config.params.midThreshold ≤ n then [.irq Config.params.midVector] else []) ++
    (if s.endFired = false ∧ Config.params.cyclesPerTick ≤ n then [.irq Config.params.endVector, .frame] else []) ++
    (if n ≤ Config.params.cyclesPerTick then [.step] else [.tickdone])
  | .evtStep => [.step]
  | .evtIrq v => [.irq v]
  | .evtPlay cue loop => [.play cue loop]
  | .evtStop cue => [.stop cue]
  | .evtFrame => [.frame]
  | .evtTickdone => [.tickdone]
  | .evtDiag code loc => [.diag code loc]
  | .memrdRom _ | .memrdRam _ | .memrdMirror _ | .memwrRam _ _ | .memwrMirror _ _ => []
  | .in0 | .in2 | .in3 | .inUnmapped _ | .out2 _ | .out4 _ | .outUnmapped _ _ => []
  | .pause _ | .setup _ _ _ | .shutdown | .fbrd _ => []

theorem tickWith_trace (x : BitVec 7) (s : State) :
    (tickWith Config.params x s).trace = s.trace ++ emitted s (.tick x) := by
  rcases tickWith_cases Config.params x s with ⟨hp, e⟩ | ⟨hp, hc, e⟩ | ⟨hp, hc, e⟩ <;> rw [e]
  · simp [emitted, hp]
  · simp [emitted, hp, hc]
  · simp [emitted, Nat.not_le.mpr hc]

theorem stepdoneWith_trace (c : BitVec 24) (s : State) :
    (stepdoneWith Config.params c s).trace = s.trace ++ emitted s (.stepdone c) := by
  rw [stepdoneWith_eq _ _ _ _ rfl]
  simp only [emitted, List.append_assoc]

/-- SETUP emits nothing, whether it fails or not (R251, R252). -/
theorem setupWith_trace (sr : ShiftInit) (draw : AllocDraw) (x : BitVec 2) (e c : Bool) (s : State) :
    (setupWith sr draw x e c s).trace = s.trace := by
  rcases setupWith_cases sr draw x e c s with ⟨status, -, h⟩ | ⟨-, -, h⟩ | ⟨-, -, h⟩ | ⟨-, -, h⟩ <;> rw [h] <;> rfl

/-- Whatever completes appends its own events to the trace, and nothing else (R11, R12). -/
theorem exec_trace {i : Instr} {s t : State} (h : exec i s = .next t) : t.trace = s.trace ++ emitted s i := by
  cases i with
  | memrdRom a => obtain ⟨-, -, rfl⟩ := execMemrdRom_next.mp h; simp [emitted]
  | memrdRam a => obtain ⟨-, -, rfl⟩ := execMemrdRam_next.mp h; simp [emitted]
  | memrdMirror a => obtain ⟨-, -, rfl⟩ := execMemrdMirror_next.mp h; simp [emitted]
  | memrdOob a => obtain ⟨-, -, rfl⟩ := execMemrdOob_next.mp h; rfl
  | memwrRom a v => obtain ⟨-, -, rfl⟩ := (execMemwrRom_next (v := v)).mp h; rfl
  | memwrRam a v => obtain ⟨-, -, rfl⟩ := execMemwrRam_next.mp h; simp [emitted]
  | memwrMirror a v => obtain ⟨-, -, rfl⟩ := execMemwrMirror_next.mp h; simp [emitted]
  | memwrOob a v => obtain ⟨-, -, rfl⟩ := (execMemwrOob_next (v := v)).mp h; rfl
  | in0 => obtain ⟨-, rfl⟩ := execIn0_next.mp h; simp [emitted, in0With]
  | in1 => obtain ⟨-, rfl⟩ := execIn1_next.mp h; rfl
  | in2 => obtain ⟨-, rfl⟩ := execIn2_next.mp h; simp [emitted, in2With]
  | in3 => obtain ⟨-, rfl⟩ := execIn3_next.mp h; simp [emitted]
  | inUnmapped n => obtain ⟨-, -, rfl⟩ := execInUnmapped_next.mp h; simp [emitted]
  | out2 v => obtain ⟨-, rfl⟩ := execOut2_next.mp h; simp [emitted]
  | out3 v => obtain ⟨-, rfl⟩ := execOut3_next.mp h; rfl
  | out4 v => obtain ⟨-, rfl⟩ := execOut4_next.mp h; simp [emitted]
  | out5 v => obtain ⟨-, rfl⟩ := execOut5_next.mp h; rfl
  | outUnmapped n v => obtain ⟨-, -, rfl⟩ := (execOutUnmapped_next (v := v)).mp h; simp [emitted]
  | tick x => obtain ⟨-, rfl⟩ := execTick_next.mp h; exact tickWith_trace x s
  | stepdone c => obtain ⟨-, rfl⟩ := execStepdone_next.mp h; exact stepdoneWith_trace c s
  | pause p => obtain ⟨-, rfl⟩ := execPause_next.mp h; simp [emitted]
  | setup x e c => obtain ⟨-, rfl⟩ := execSetup_next.mp h; simp [emitted, setupWith_trace]
  | shutdown => obtain ⟨-, rfl⟩ := execShutdown_next.mp h; simp [emitted]
  | fbrd p => obtain ⟨-, -, rfl⟩ := execFbrd_next.mp h; simp [emitted]
  | evtStep | evtIrq | evtPlay | evtStop | evtFrame | evtTickdone | evtDiag => cases h; rfl

/-- A DIAG is the only event of its instruction (R276). -/
theorem emitted_diag_alone (s : State) (i : Instr) :
    (∃ code loc, emitted s i = [.diag code loc]) ∨ withoutDiag (emitted s i) = emitted s i := by
  cases i with
  | memrdOob | memwrRom | memwrOob | evtDiag => exact .inl ⟨_, _, rfl⟩
  | in1 => exact .inr (withoutDiag_creditCommands _ _)
  | out3 | out5 => exact .inr (withoutDiag_edgeCommands _ _ _)
  | tick x =>
    simp only [emitted]
    split <;> exact .inr rfl
  | stepdone c =>
    simp only [emitted]
    split_ifs <;> exact .inr rfl
  | _ => exact .inr rfl

/-- Settles O56: the events appended are the instruction's own, and a DIAG among them stands alone. -/
theorem traceOnlyGrows : Obligations.TraceOnlyGrows := by
  intro i s t h
  refine ⟨emitted s i, exec_trace h, ?_⟩
  rcases emitted_diag_alone s i with ⟨code, loc, hd⟩ | hd
  · rw [hd]
    exact Nat.le_add_left _ _
  · rw [hd]
    exact Nat.le_succ _

end Sys2Proof.Machine
end

section
/-! PROOFS. Every instruction at once: when it completes, and the state it then leaves. The claims made of every
instruction go through `exec_next_iff`, so that each is a case split on `after` alone. -/

namespace Sys2Proof.Machine

/-! ## The state a completed instruction leaves -/

/-- The instruction's operands are its row's (R93), and the state accepts it (R88). -/
def Completes (s : State) (i : Instr) : Prop :=
  i.wellFormed = true ∧ match i with
  | .memrdRom _ | .memrdRam _ | .memrdMirror _ | .memrdOob _ => s.AcceptsBus
  | .memwrRom _ _ | .memwrRam _ _ | .memwrMirror _ _ | .memwrOob _ _ => s.AcceptsBus
  | .in0 | .in1 | .in2 | .in3 | .inUnmapped _ => s.AcceptsBus
  | .out2 _ | .out3 _ | .out4 _ | .out5 _ | .outUnmapped _ _ => s.AcceptsBus
  | .tick _ | .shutdown | .fbrd _ => s.AcceptsHost
  | .pause _ => s.AcceptsPause
  | .setup _ _ _ => s.AcceptsSetup
  | .stepdone _ => s.AcceptsStepdone
  | .evtStep | .evtIrq _ | .evtPlay _ _ | .evtStop _ | .evtFrame | .evtTickdone | .evtDiag _ _ => True

/-- The state that an instruction leaves where it completes. -/
def after (s : State) : Instr → State
  | .memrdRom a | .memrdRam a => s.respond (.byte (s.memByte a.toNat))
  | .memrdMirror a => s.respond (.byte (s.memByte (a.toNat - 0x2000)))
  | .memrdOob a => (s.emit [.diag .rdOob a]).respond (.byte 0x00)
  | .memwrRom a _ => (s.emit [.diag .wrRom a]).respond .noData
  | .memwrRam a v => (s.writeMem a.toNat v).respond .noData
  | .memwrMirror a v => (s.writeMem (a.toNat - 0x2000) v).respond .noData
  | .memwrOob a _ => (s.emit [.diag .wrOob a]).respond .noData
  | .in0 => in0With Config.params s
  | .in1 => in1With Config.params s
  | .in2 => in2With Config.params s
  | .in3 => s.respond (.byte (shiftWindow s.srHigh s.srLow s.srOffset))
  | .inUnmapped _ => s.respond (.byte 0x00)
  | .out2 v => { s with srOffset := v.setWidth 3 }.respond .noData
  | .out3 v => out3With Config.params v s
  | .out4 v => { s with srLow := s.srHigh, srHigh := v }.respond .noData
  | .out5 v => out5With Config.params v s
  | .outUnmapped _ _ => s.respond .noData
  | .tick x => tickWith Config.params x s
  | .pause p => { s with paused := p }.respond .noData
  | .setup x e c => setupWith (Config.srInit (s.allocDraws + 1)) (Config.allocDraw (s.allocDraws + 1)) x e c s
  | .shutdown => (tearDown s).respond .noData
  | .fbrd p => s.respond (.pixel (s.fbPixel p.toNat))
  | .stepdone c => stepdoneWith Config.params c s
  | .evtStep => s.emit [.step]
  | .evtIrq v => s.emit [.irq v]
  | .evtPlay cue loop => s.emit [.play cue loop]
  | .evtStop cue => s.emit [.stop cue]
  | .evtFrame => s.emit [.frame]
  | .evtTickdone => s.emit [.tickdone]
  | .evtDiag code loc => s.emit [.diag code loc]

/-- An operand check that is the row's own makes the two conditions of `Completes`. -/
theorem next_iff_of_wellFormed {o : Host.Outcome State Fault Refusal} {t u : State} {P A : Prop} {w : Bool}
    (h : o = .next t ↔ P ∧ A ∧ t = u) (hw : w = true ↔ P) : o = .next t ↔ (w = true ∧ A) ∧ t = u := by
  rw [h, hw, and_assoc]

/-- An instruction answers a next state exactly where it completes, and then the one state. -/
theorem exec_next_iff {i : Instr} {s t : State} : exec i s = .next t ↔ Completes s i ∧ t = after s i := by
  cases i with
  | memrdRom a => exact next_iff_of_wellFormed execMemrdRom_next (by simp [Instr.wellFormed])
  | memrdRam a => exact next_iff_of_wellFormed execMemrdRam_next (by simp [Instr.wellFormed])
  | memrdMirror a => exact next_iff_of_wellFormed execMemrdMirror_next (by simp [Instr.wellFormed])
  | memrdOob a => exact next_iff_of_wellFormed execMemrdOob_next (by simp [Instr.wellFormed])
  | memwrRom a v => exact next_iff_of_wellFormed (execMemwrRom_next (v := v)) (by simp [Instr.wellFormed])
  | memwrRam a v => exact next_iff_of_wellFormed execMemwrRam_next (by simp [Instr.wellFormed])
  | memwrMirror a v => exact next_iff_of_wellFormed execMemwrMirror_next (by simp [Instr.wellFormed])
  | memwrOob a v => exact next_iff_of_wellFormed (execMemwrOob_next (v := v)) (by simp [Instr.wellFormed])
  | inUnmapped n => exact next_iff_of_wellFormed execInUnmapped_next (by simp [Instr.wellFormed])
  | outUnmapped n v => exact next_iff_of_wellFormed (execOutUnmapped_next (v := v)) (by simp [Instr.wellFormed])
  | fbrd p => exact next_iff_of_wellFormed execFbrd_next (by simp [Instr.wellFormed])
  | in0 | in1 | in2 | in3 | out2 | out3 | out4 | out5 | tick | pause | setup | shutdown | stepdone =>
    exact acceptIf_next.trans (and_congr_left' (and_iff_right rfl).symm)
  | evtStep | evtIrq | evtPlay | evtStop | evtFrame | evtTickdone | evtDiag =>
    exact ⟨fun h => ⟨⟨rfl, trivial⟩, by cases h; rfl⟩, fun ⟨_, h⟩ => h ▸ rfl⟩

/-- An instruction accepted only while ON has nothing to show of OFF. -/
theorem ne_off_of_on {s : State} (h : s.lifecycle = .on) : s.lifecycle ≠ .off := by
  rw [h]
  nofun

/-! ## What TICK and SETUP leave unchanged -/

/-- TICK leaves all but INPUT, the schedule, the trace and the answer unchanged. -/
theorem tickWith_frame (p : Params) (x : BitVec 7) (s : State) :
    tickWith p x s = { s with
      input := (tickWith p x s).input
      cycles := (tickWith p x s).cycles
      midFired := (tickWith p x s).midFired
      endFired := (tickWith p x s).endFired
      phase := (tickWith p x s).phase
      trace := (tickWith p x s).trace
      answer := (tickWith p x s).answer } := by
  rcases tickWith_cases p x s with ⟨-, e⟩ | ⟨-, -, e⟩ | ⟨-, -, e⟩ <;> rw [e] <;> rfl

/-- TICK sets INPUT to its operand, unless it is paused (R192, R193). -/
theorem tickWith_input (p : Params) (x : BitVec 7) (s : State) :
    (tickWith p x s).input = if s.paused then s.input else x := by
  rcases tickWith_cases p x s with ⟨hp, e⟩ | ⟨hp, -, e⟩ | ⟨hp, -, e⟩ <;> simp [e, hp]

theorem setupWith_paused (sr : ShiftInit) (draw : AllocDraw) (x : BitVec 2) (e c : Bool) (s : State) :
    (setupWith sr draw x e c s).paused = s.paused := by
  rcases setupWith_cases sr draw x e c s with ⟨_, -, h⟩ | ⟨-, -, h⟩ | ⟨-, -, h⟩ | ⟨-, -, h⟩ <;> rw [h] <;> rfl

/-! ## What an instruction leaves unchanged -/

/-- What SETUP alone gives a value, and SHUTDOWN alone takes away: LIFECYCLE, the DIP switches and the allocation. -/
structure SameSetup (s t : State) : Prop where
  lifecycle : t.lifecycle = s.lifecycle
  dipShips : t.dipShips = s.dipShips
  dipExtra : t.dipExtra = s.dipExtra
  dipCoin : t.dipCoin = s.dipCoin
  allocDraws : t.allocDraws = s.allocDraws

theorem tickWith_sameSetup (p : Params) (x : BitVec 7) (s : State) : SameSetup s (tickWith p x s) := by
  rw [tickWith_frame]
  exact ⟨rfl, rfl, rfl, rfl, rfl⟩

theorem stepdoneWith_sameSetup (p : Params) (c : BitVec 24) (s : State) : SameSetup s (stepdoneWith p c s) := by
  rw [stepdoneWith_eq _ _ _ _ rfl]
  exact ⟨rfl, rfl, rfl, rfl, rfl⟩

theorem after_sameSetup {i : Instr} (s : State) (hd : i ≠ .shutdown) (hu : ∀ x e c, i ≠ .setup x e c) :
    SameSetup s (after s i) := by
  cases i with
  | shutdown => exact absurd rfl hd
  | setup x e c => exact absurd rfl (hu x e c)
  | tick x => exact tickWith_sameSetup _ _ _
  | stepdone c => exact stepdoneWith_sameSetup _ _ _
  | _ => exact ⟨rfl, rfl, rfl, rfl, rfl⟩

theorem after_paused {i : Instr} (s : State) (hp : ∀ p, i ≠ .pause p) : (after s i).paused = s.paused := by
  cases i with
  | pause p => exact absurd rfl (hp p)
  | tick x => rw [after, tickWith_frame]
  | stepdone c => rw [after, stepdoneWith_eq _ _ _ _ rfl]
  | setup x e c => exact setupWith_paused _ _ _ _ _ _
  | _ => rfl

theorem after_input {i : Instr} (s : State) (hd : i ≠ .shutdown) (hu : ∀ x e c, i ≠ .setup x e c)
    (ht : ∀ x, i ≠ .tick x) : (after s i).input = s.input := by
  cases i with
  | shutdown => exact absurd rfl hd
  | setup x e c => exact absurd rfl (hu x e c)
  | tick x => exact absurd rfl (ht x)
  | stepdone c => rw [after, stepdoneWith_eq _ _ _ _ rfl]
  | _ => rfl

theorem after_fb {i : Instr} (s : State) (hd : i ≠ .shutdown) (hu : ∀ x e c, i ≠ .setup x e c)
    (hs : ∀ c, i ≠ .stepdone c) : (after s i).fb = s.fb := by
  cases i with
  | shutdown => exact absurd rfl hd
  | setup x e c => exact absurd rfl (hu x e c)
  | stepdone c => exact absurd rfl (hs c)
  | tick x => rw [after, tickWith_frame]
  | _ => rfl

/-- Between SETUP and SHUTDOWN the listed bytes change only by a store, at the instruction's own index. -/
theorem after_mem_cases {i : Instr} (s : State) (hd : i ≠ .shutdown) (hu : ∀ x e c, i ≠ .setup x e c) :
    (after s i).mem = s.mem ∨ ∃ k v, storeIndex i = some k ∧ (after s i).mem = s.mem.write k v := by
  cases i with
  | shutdown => exact absurd rfl hd
  | setup x e c => exact absurd rfl (hu x e c)
  | memwrRam a v | memwrMirror a v => exact .inr ⟨_, v, rfl, rfl⟩
  | tick x => exact .inl (by rw [after, tickWith_frame])
  | stepdone c => exact .inl (by rw [after, stepdoneWith_eq _ _ _ _ rfl])
  | _ => exact .inl rfl

/-- A store goes to RAM (R105, R106): never to ROM, and never out of the backing store. -/
theorem storeIndex_in_ram {i : Instr} {k : Nat} (hi : i.wellFormed = true) (hk : storeIndex i = some k) :
    0x2000 ≤ k ∧ k < 0x4000 := by
  cases i with
  | memwrRam a v =>
    obtain rfl : a.toNat = k := Option.some.inj hk
    simpa [Instr.wellFormed] using hi
  | memwrMirror a v =>
    have hidx : a.toNat - 0x2000 = k := Option.some.inj hk
    have hreg : 0x4000 ≤ a.toNat ∧ a.toNat < 0x6000 := by simpa [Instr.wellFormed] using hi
    omega
  | _ => cases hk

/-! ## Runs -/

/-- A run that completes is its first instruction's next state, and the run of the rest from there. -/
theorem runInstrs_cons_next {i : Instr} {is : List Instr} {s u : State} :
    runInstrs (i :: is) s = .next u ↔ ∃ t, exec i s = .next t ∧ runInstrs is t = .next u := by
  rw [runInstrs]
  cases exec i s <;> simp

/-- What holds at a run's start and is kept by each of its instructions holds at its end. -/
theorem runInstrs_induction {P : State → Prop} {is : List Instr} {s t : State}
    (hstep : ∀ i ∈ is, ∀ s t, P s → exec i s = .next t → P t) (hs : P s) (h : runInstrs is s = .next t) : P t := by
  induction is generalizing s with
  | nil => cases h; exact hs
  | cons i is ih =>
    obtain ⟨u, hu, h⟩ := runInstrs_cons_next.mp h
    exact ih (fun j hj => hstep j (List.mem_cons_of_mem _ hj)) (hstep i List.mem_cons_self _ _ hs hu) h

end Sys2Proof.Machine
end

section
/-! PROOFS. The family of spec/10_state.md: which instruction writes which element of R20, that no output but FBRD's
depends on the frame buffer (R40), and that every step keeps the invariant. -/

namespace Sys2Proof.Machine

/-! ## Who writes what -/

/-- Settles O51, by the frames of LIFECYCLE and PAUSED. -/
theorem lifecycleAndPauseWriters : Obligations.LifecycleAndPauseWriters := by
  intro i s t h
  obtain ⟨-, rfl⟩ := exec_next_iff.mp h
  refine ⟨fun hl => ?_, fun hp => ?_⟩
  · by_contra hi
    push Not at hi
    exact hl (after_sameSetup s hi.1 hi.2).lifecycle
  · by_contra hi
    push Not at hi
    exact hp (after_paused s hi)

/-- Settles O52: a TICK sets INPUT, and only while it is not paused. -/
theorem inputsAreFixedWithinATick : Obligations.InputsAreFixedWithinATick := by
  intro i s t h hd hu
  obtain ⟨-, rfl⟩ := exec_next_iff.mp h
  obtain ⟨-, hships, hextra, hcoin, -⟩ := after_sameSetup s hd hu
  refine ⟨hships, hextra, hcoin, fun hx => ?_⟩
  by_cases ht : ∃ x, i = .tick x
  · obtain ⟨x, rfl⟩ := ht
    rw [after, tickWith_input] at hx ⊢
    cases hp : s.paused with
    | true => exact absurd (if_pos hp) hx
    | false => exact ⟨rfl, x, rfl, rfl⟩
  · exact absurd (after_input s hd hu (not_exists.mp ht)) hx

/-- Settles O53: all but STEPDONE keep the list of pixels, and STEPDONE keeps it short of a first time at the budget. -/
theorem frameBufferWriters : Obligations.FrameBufferWriters := by
  intro i s t h hd hu hpix
  obtain ⟨-, rfl⟩ := exec_next_iff.mp h
  have hfb : (after s i).fb ≠ s.fb := fun e => hpix (fbPixel_congr e (after_sameSetup s hd hu).allocDraws)
  by_cases hs : ∃ c, i = .stepdone c
  · obtain ⟨c, rfl⟩ := hs
    rw [after, stepdoneWith_eq _ _ _ _ rfl] at hfb ⊢
    obtain ⟨he, hn⟩ := of_not_not fun hc => hfb (if_neg hc)
    exact ⟨c, rfl, he, hn, by simp [hn]⟩
  · exact absurd (after_fb s hd hu (not_exists.mp hs)) hfb

/-- A byte of ROM is kept while ON, where SETUP is refused and no store reaches it. -/
theorem exec_keeps_rom {i : Instr} {s t : State} (hon : s.lifecycle = .on) (hd : i ≠ .shutdown)
    (h : exec i s = .next t) : t.lifecycle = .on ∧ ∀ k < 0x2000, t.memByte k = s.memByte k := by
  obtain ⟨⟨hwf, hacc⟩, rfl⟩ := exec_next_iff.mp h
  have hu : ∀ x e c, i ≠ .setup x e c := by
    rintro x e c rfl
    exact ne_off_of_on hon hacc
  have hsame := after_sameSetup s hd hu
  refine ⟨hsame.lifecycle.trans hon, fun k hk => ?_⟩
  rcases after_mem_cases s hd hu with hm | ⟨j, v, hj, hm⟩
  · exact memByte_congr hm hsame.allocDraws k
  · have hjk : k ≠ j := by have := storeIndex_in_ram hwf hj; omega
    exact (memByte_congr (s := s.writeMem j v) hm hsame.allocDraws k).trans (memByte_writeMem_other s v hjk)

/-- Settles O19, by induction on the run. -/
theorem romKeptUntilShutdown : Obligations.RomKeptUntilShutdown := by
  intro is s t hon hd h
  refine (runInstrs_induction (P := fun u => u.lifecycle = .on ∧ ∀ k < 0x2000, u.memByte k = s.memByte k)
    (fun i hi u v hu hv => ?_) ⟨hon, fun _ _ => rfl⟩ h).2
  obtain ⟨honu, hrom⟩ := hu
  obtain ⟨honv, hkept⟩ := exec_keeps_rom honu (fun e => hd (e ▸ hi)) hv
  exact ⟨honv, fun k hk => (hkept k hk).trans (hrom k hk)⟩

/-! ## The frame buffer shows only to FBRD (R40) -/

theorem completes_withFb (i : Instr) (s : State) (f : List Pixel) :
    Completes { s with fb := f } i ↔ Completes s i := by
  cases i <;> rfl

/-- SETUP does not depend on the frame buffer: it clears it, or leaves it alone. -/
theorem setupWith_withFb (sr : ShiftInit) (draw : AllocDraw) (x : BitVec 2) (e c : Bool) (s : State)
    (f : List Pixel) :
    ∃ g, setupWith sr draw x e c { s with fb := f } = { setupWith sr draw x e c s with fb := g } := by
  unfold setupWith
  cases romError 0 s.romPort.list with
  | some status => exact ⟨f, rfl⟩
  | none =>
    cases draw with
    | ok => exact ⟨[], rfl⟩
    | memoryFails | displayFails => exact ⟨f, rfl⟩

theorem tickWith_withFb (p : Params) (x : BitVec 7) (s : State) (f : List Pixel) :
    tickWith p x { s with fb := f } = { tickWith p x s with fb := f } := by
  unfold tickWith loopTest
  split_ifs <;> rfl

/-- STEPDONE does not depend on the frame buffer: it converts memory into a new one, or leaves it alone. -/
theorem stepdoneWith_withFb (p : Params) (c : BitVec 24) (s : State) (f : List Pixel) :
    ∃ g, stepdoneWith p c { s with fb := f } = { stepdoneWith p c s with fb := g } := by
  rw [stepdoneWith_eq p c s _ rfl, stepdoneWith_eq p c { s with fb := f } _ rfl]
  exact ⟨_, rfl⟩

/-- Whatever the frame buffer holds, an instruction that is no FBRD leaves the same state but for it. -/
theorem after_withFb {i : Instr} (hi : ∀ p, i ≠ .fbrd p) (s : State) (f : List Pixel) :
    ∃ g, after { s with fb := f } i = { after s i with fb := g } := by
  cases i with
  | fbrd p => exact absurd rfl (hi p)
  | setup x e c => exact setupWith_withFb _ _ _ _ _ _ _
  | shutdown => exact ⟨[], rfl⟩
  | tick x => exact ⟨f, tickWith_withFb _ _ _ _⟩
  | stepdone c => exact stepdoneWith_withFb _ _ _ _
  | _ => exact ⟨f, rfl⟩

theorem exec_withFb {i : Instr} (hi : ∀ p, i ≠ .fbrd p) {s t : State} (h : exec i s = .next t) (f : List Pixel) :
    ∃ g, exec i { s with fb := f } = .next { t with fb := g } := by
  obtain ⟨hc, rfl⟩ := exec_next_iff.mp h
  obtain ⟨g, hg⟩ := after_withFb hi s f
  exact ⟨g, exec_next_iff.mpr ⟨(completes_withFb i s f).mpr hc, hg.symm⟩⟩

/-- Settles O54: the two runs agree but for the frame buffer after each instruction. -/
theorem frameBufferShowsOnlyToFbrd : Obligations.FrameBufferShowsOnlyToFbrd := by
  intro is f s t hno h
  induction is generalizing s f with
  | nil => cases h; exact ⟨f, rfl⟩
  | cons i is ih =>
    obtain ⟨u, hu, h⟩ := runInstrs_cons_next.mp h
    obtain ⟨f', hf'⟩ := exec_withFb (fun p hp => hno p (hp ▸ List.mem_cons_self)) hu f
    obtain ⟨g, hg⟩ := ih f' u (fun p hp => hno p (List.mem_cons_of_mem _ hp)) h
    exact ⟨g, runInstrs_cons_next.mpr ⟨_, hf', hg⟩⟩

/-! ## The invariant

It does not speak of the trace, the answer, PAUSED and the requests: `{ hs with }` carries it to a state that differs in
these alone. -/

/-- SETUP with good images loads every ROM byte (R24, R251). -/
theorem romContents_loaded {r : RomImages} (h : romError 0 r.list = none) {i : Nat} (hi : i < 0x2000) :
    ((romContents r).read? i).isSome = true := by
  have hread := read?_romContents h (k := i / 2048) (j := i % 2048) (by omega) (Nat.mod_lt _ (by decide))
  rw [Nat.div_add_mod i 2048] at hread
  have hk : i / 2048 < r.list.length := (by omega : i / 2048 < 4)
  obtain ⟨bytes, hb, hlen⟩ := romError_eq_none h _ (List.getElem_mem hk)
  have hj : i % 2048 < bytes.length := by rw [hlen]; exact Nat.mod_lt _ (by decide)
  rw [hread, List.getElem?_eq_getElem hk, hb]
  simp [List.getElem?_eq_getElem hj]

theorem isSome_read?_write {m : Memory} {i : Nat} (h : (m.read? i).isSome = true) (k : Nat) (v : Byte) :
    ((m.write k v).read? i).isSome = true := by
  by_cases hik : i = k
  · rw [hik, read?_write_same]
    rfl
  · rw [read?_write_other m v hik]
    exact h

theorem inv_writeMem {s : State} (hs : s.Inv) (hon : s.lifecycle = .on) {k : Nat} (hk : k < 0x4000) (v : Byte) :
    (s.writeMem k v).Inv :=
  { hs with
    memory := write_wf v hs.memory hk
    romLoaded := fun h i hi => isSome_read?_write (hs.romLoaded h i hi) k v
    nothing := fun h => absurd h (ne_off_of_on hon) }

/-- A tick starts with both flags clear, asks for a step only within the budget, and carries no phase but IDLE over. -/
theorem inv_tickWith {s : State} (hs : s.Inv) (hon : s.lifecycle = .on) (x : BitVec 7) :
    (tickWith Config.params x s).Inv := by
  rcases tickWith_cases Config.params x s with ⟨-, e⟩ | ⟨-, hc, e⟩ | ⟨-, -, e⟩ <;> rw [e]
  · exact { hs with }
  · exact { hs with
      budget := fun _ => hc
      midReached := nofun
      endReached := nofun
      midFirst := nofun
      nothing := fun h => absurd h (ne_off_of_on hon) }
  · exact { hs with
      budget := nofun
      midReached := nofun
      endReached := nofun
      midFirst := nofun
      nothing := fun h => absurd h (ne_off_of_on hon) }

/-- A flag that was set past its threshold, or that its check has just set, stands for a count past it. -/
theorem reached_of_fired {fired : Bool} {threshold m n : Nat} (hmn : m ≤ n) (hm : fired = true → threshold ≤ m)
    (h : (fired || decide (threshold ≤ n)) = true) : threshold ≤ n := by
  rcases (Bool.or_eq_true _ _).mp h with h | h
  · exact (hm h).trans hmn
  · exact of_decide_eq_true h

/-- The loop test stays in STEP_WAIT only within the budget (R194). -/
theorem le_budget_of_stepWait {n budget : Nat} (h : (if n ≤ budget then Phase.stepWait else .idle) = .stepWait) :
    n ≤ budget := by
  by_contra hn
  rw [if_neg hn] at h
  cases h

/-- A STEPDONE sets a flag only at its threshold, and leaves STEP_WAIT once the count is past the budget. -/
theorem inv_stepdoneWith {s : State} (hs : s.Inv) (hon : s.lifecycle = .on) (hwait : s.phase = .stepWait)
    (c : BitVec 24) : (stepdoneWith Config.params c s).Inv := by
  obtain ⟨n, hn⟩ : ∃ n, n = s.cycles + c.toNat := ⟨_, rfl⟩
  have hgrow : s.cycles ≤ n := hn ▸ Nat.le_add_right _ _
  rw [stepdoneWith_eq _ _ _ n hn]
  refine { hs with
    pixels := ?pixels
    budget := fun h => ?budget
    midReached := fun h => ?midReached
    endReached := fun h => ?endReached
    midFirst := ?midFirst
    nothing := fun h => absurd h (ne_off_of_on hon) }
  case pixels =>
    dsimp only
    split
    · exact .inr (videoFrame_length _ _ _)
    · exact hs.pixels
  case budget =>
    rw [if_pos (le_budget_of_stepWait h)]
    exact le_budget_of_stepWait h
  case midReached =>
    rw [if_pos (le_budget_of_stepWait h)]
    exact reached_of_fired hgrow (hs.midReached hwait)
  case endReached =>
    rw [if_pos (le_budget_of_stepWait h)]
    exact reached_of_fired hgrow (hs.endReached hwait)
  case midFirst =>
    simp only [Bool.or_eq_true, decide_eq_true_eq]
    exact Or.imp hs.midFirst Config.midThreshold_le.trans

/-- SETUP fails and leaves all as it was, or brings up ROM from good images with every flag clear (R251 to R253). -/
theorem inv_setupWith {s : State} (hs : s.Inv) (sr : ShiftInit) (draw : AllocDraw) (x : BitVec 2) (e c : Bool) :
    (setupWith sr draw x e c s).Inv := by
  rcases setupWith_cases sr draw x e c s with ⟨_, -, h⟩ | ⟨-, -, h⟩ | ⟨-, -, h⟩ | ⟨hrom, -, h⟩ <;> rw [h]
  · exact { hs with }
  · exact { hs with }
  · exact { hs with }
  · exact {
      memory := romContents_wf hrom
      romLoaded := fun _ _ hi => romContents_loaded hrom hi
      pixels := .inl rfl
      budget := nofun
      midReached := nofun
      endReached := nofun
      midFirst := nofun
      nothing := nofun }

/-- SHUTDOWN, which is accepted only while IDLE, leaves nothing (R254). -/
theorem inv_tearDown {s : State} (hidle : s.phase = .idle) : (tearDown s).Inv where
  memory := nil_wf
  romLoaded := nofun
  pixels := .inl rfl
  budget h := nomatch hidle.symm.trans h
  midReached := nofun
  endReached := nofun
  midFirst := nofun
  nothing _ := ⟨rfl, rfl, rfl, rfl, rfl, rfl, rfl, rfl, rfl, rfl, rfl, rfl, rfl, rfl, rfl, hidle⟩

theorem after_inv {i : Instr} {s : State} (hs : s.Inv) (hc : Completes s i) : (after s i).Inv := by
  obtain ⟨hwf, hacc⟩ := hc
  cases i with
  | memwrRam a v | memwrMirror a v => exact { inv_writeMem hs hacc (storeIndex_in_ram hwf rfl).2 v with }
  | in1 | out2 | out3 | out4 | out5 =>
    exact { hs with nothing := fun h => absurd h (ne_off_of_on hacc) }
  | tick x => exact inv_tickWith hs hacc.1 x
  | stepdone c => exact inv_stepdoneWith hs hacc.1 hacc.2 c
  | setup x e c => exact inv_setupWith hs _ _ _ _ _
  | shutdown => exact { inv_tearDown hacc.2 with }
  | _ => exact { hs with }

/-- Settles O57: a step waits, or takes a request, of which the invariant does not speak, and completes it. -/
theorem stepKeepsInv : Obligations.StepKeepsInv := by
  intro s t hs h
  rcases step_cases h with ⟨-, rfl⟩ | ⟨r, rest, i, -, -, hi⟩
  · exact hs
  · obtain ⟨hc, rfl⟩ := exec_next_iff.mp hi
    exact after_inv { hs with } hc

end Sys2Proof.Machine
end

section
/-! PROOFS. The family of spec/20_memory.md: the address decoder (R61), the mirror (R62), that a byte reads as the most
recent write to it (R69), and which bus transactions can be done again without effect (R67). -/

namespace Sys2Proof.Machine

/-! ## The regions (R61, R62) -/

/-- Settles O12, region by region. -/
theorem addressDecoder : Obligations.AddressDecoder :=
  fun _ => ⟨decodeAddr_rom, decodeAddr_ram, decodeAddr_mirror, decodeAddr_oob⟩

/-- Settles O17: the decoder gives both addresses one index, and the two rows have one meaning at it. -/
theorem mirrorAlias : Obligations.MirrorAlias := by
  intro a b v s ha ha' hab
  have hidx : a.toNat - 0x2000 = b.toNat := by omega
  have hmirror : decodeAddr a = .mirror b.toNat := hidx ▸ decodeAddr_mirror ha ha'
  have hram : decodeAddr b = .ram b.toNat := decodeAddr_ram (by omega) (by omega)
  constructor
  · simp only [exec, execMemrdMirror, execMemrdRam, hmirror, hram]
  · simp only [exec, execMemwrMirror, execMemwrRam, hmirror, hram]

/-! ## The most recent write (R69) -/

/-- Between SETUP and SHUTDOWN a byte changes only by a store to it. -/
theorem after_memByte {i : Instr} (s : State) {k : Nat} (hk : storeIndex i ≠ some k) (hd : i ≠ .shutdown)
    (hu : ∀ x e c, i ≠ .setup x e c) : (after s i).memByte k = s.memByte k := by
  have hdraws := (after_sameSetup s hd hu).allocDraws
  rcases after_mem_cases s hd hu with hm | ⟨j, v, hj, hm⟩
  · exact memByte_congr hm hdraws k
  · have hkj : k ≠ j := fun e => hk (e ▸ hj)
    calc (after s i).memByte k
      _ = (s.writeMem j v).memByte k := memByte_congr (s := s.writeMem j v) hm hdraws k
      _ = s.memByte k := memByte_writeMem_other s v hkj

/-- The work of the tick loop allocates nothing and destroys nothing. -/
theorem not_control_of_isTickWork {i : Instr} (h : isTickWork i = true) :
    i ≠ .shutdown ∧ ∀ x e c, i ≠ .setup x e c := by
  constructor
  · rintro rfl
    cases h
  · rintro x e c rfl
    cases h

/-- A store of `v` leaves `v` at its index, through either address. -/
theorem after_store_memByte {i : Instr} {k : Nat} {v : Byte} (s : State)
    (hi : (∃ a, i = .memwrRam a v) ∨ (∃ a, i = .memwrMirror a v)) (hk : storeIndex i = some k) :
    (after s i).memByte k = v := by
  rcases hi with ⟨a, rfl⟩ | ⟨a, rfl⟩
  · obtain rfl : a.toNat = k := Option.some.inj hk
    exact memByte_writeMem_same s _ v
  · obtain rfl : a.toNat - 0x2000 = k := Option.some.inj hk
    exact memByte_writeMem_same s _ v

/-- Settles O18, by induction on the run: the store puts the byte there, and nothing in the run stores to it. -/
theorem lastWriteIsRead : Obligations.LastWriteIsRead := by
  intro i k v is s t u hi hk ht hrun hu
  refine runInstrs_induction (P := fun w => w.memByte k = v) (fun j hj w w' hw hw' => ?_) ?_ hu
  · obtain ⟨hwork, hne⟩ := hrun j hj
    obtain ⟨hd, hsu⟩ := not_control_of_isTickWork hwork
    obtain ⟨-, rfl⟩ := exec_next_iff.mp hw'
    exact (after_memByte w hne hd hsu).trans hw
  · obtain ⟨-, rfl⟩ := exec_next_iff.mp ht
    exact after_store_memByte s hi hk

/-! ## Transactions done again (R67) -/

/-- A bus transaction is accepted again after itself, for none changes LIFECYCLE. -/
theorem exec_again {i : Instr} {s t : State} (hbus : isBus i = true) (hidem : after (after s i) i = after s i)
    (h : exec i s = .next t) : exec i t = .next t := by
  obtain ⟨hc, rfl⟩ := exec_next_iff.mp h
  refine exec_next_iff.mpr ⟨?_, hidem.symm⟩
  cases i with
  | tick | pause | setup | shutdown | fbrd | stepdone => cases hbus
  | evtStep | evtIrq | evtPlay | evtStop | evtFrame | evtTickdone | evtDiag => cases hbus
  | _ => exact hc

/-- A credit bit that the last read has seen is no edge. -/
@[simp] theorem creditCommands_self (credit : Bool) : creditCommands credit credit = [] := by
  cases credit <;> rfl

@[simp] theorem in1With_in1With (p : Params) (s : State) : in1With p (in1With p s) = in1With p s := by
  simp [in1With, State.emit, State.respond]

@[simp] theorem out3With_out3With (p : Params) (v : Byte) (s : State) :
    out3With p v (out3With p v s) = out3With p v s := by
  simp [out3With, State.emit, State.respond]

@[simp] theorem out5With_out5With (p : Params) (v : Byte) (s : State) :
    out5With p v (out5With p v s) = out5With p v s := by
  simp [out5With, State.emit, State.respond]

/-- Settles O24: the second read finds CREDIT_PREV at the bit it reads, so that it plays no coin cue. -/
theorem controlsReadIdempotent : Obligations.ControlsReadIdempotent :=
  fun s _ h => exec_again rfl (in1With_in1With Config.params s) h

/-- Settles O32: device 2's offset does not depend on the one before, and a byte that a latch holds has no edge in it. -/
theorem repeatedWritesAreNoOps : Obligations.RepeatedWritesAreNoOps := by
  intro v i s t hi h
  simp only [List.mem_cons, List.not_mem_nil, or_false] at hi
  rcases hi with rfl | rfl | rfl
  · exact exec_again rfl rfl h
  · exact exec_again rfl (out3With_out3With Config.params v s) h
  · exact exec_again rfl (out5With_out5With Config.params v s) h

end Sys2Proof.Machine
end

section
/-! PROOFS. The family of spec/30_encoding.md, its words: what the decoder reads from a word of each OP (R81, R82), and
so which words are legal (R86) and which row each is (R93); that decoder and encoder agree (R87), and the events' own
decoder with theirs (R90). -/

namespace Sys2Proof

/-! ## A field that is wider than its operand (R82) -/

theorem toNat_zero_append {k n : Nat} (x : BitVec n) : (0#k ++ x).toNat = x.toNat := by
  simp [BitVec.toNat_append]

/-- A field whose upper bits are 0 is its operand, padded. -/
theorem zero_append_setWidth {k n : Nat} {a : BitVec (k + n)} (h : a.toNat < 2 ^ n) : 0#k ++ a.setWidth n = a :=
  BitVec.eq_of_toNat_eq (by simp [Nat.mod_eq_of_lt h])

/-- The bits from `n` up are 0 exactly where the value is below `2 ^ n`. -/
theorem extractLsb'_eq_zero_iff {k n : Nat} (a : BitVec (n + k)) : a.extractLsb' n k = 0#k ↔ a.toNat < 2 ^ n := by
  have hlt : a.toNat / 2 ^ n < 2 ^ k := Nat.div_lt_of_lt_mul (Nat.pow_add 2 n k ▸ a.isLt)
  rw [← BitVec.toNat_inj, BitVec.extractLsb'_toNat, Nat.shiftRight_eq_div_pow, Nat.mod_eq_of_lt hlt, BitVec.toNat_ofNat,
    Nat.zero_mod, Nat.div_eq_zero_iff]
  simp

theorem extractLsb'_zero {m n : Nat} (a : BitVec m) : a.extractLsb' 0 n = a.setWidth n :=
  BitVec.eq_of_toNat_eq (by simp)

@[simp] theorem toNat_deviceField (n : Device) : (deviceField n).toNat = n.toNat := toNat_zero_append n

@[simp] theorem setWidth_deviceField (n : Device) : (deviceField n).setWidth 8 = n := BitVec.setWidth_append_eq_right

/-! ## The decoder, OP by OP (R81, R82) -/

section
variable (d : Byte) (a : Addr)

@[simp] theorem decodeTxn_memrd : decodeTxn (packWord 0x0#4 d a) = require (d = 0) (.memrd a) := by
  simp [decodeTxn]

@[simp] theorem decodeTxn_memwr : decodeTxn (packWord 0x1#4 d a) = some (.memwr a d) := by
  simp [decodeTxn]

@[simp] theorem decodeTxn_iord :
    decodeTxn (packWord 0x2#4 d a) = require (d = 0 ∧ a.toNat < 0x100) (.iord (a.setWidth 8)) := by
  simp [decodeTxn, extractLsb'_zero, extractLsb'_eq_zero_iff (n := 8) (k := 8) a]

@[simp] theorem decodeTxn_iowr :
    decodeTxn (packWord 0x3#4 d a) = require (a.toNat < 0x100) (.iowr (a.setWidth 8) d) := by
  simp [decodeTxn, extractLsb'_zero, extractLsb'_eq_zero_iff (n := 8) (k := 8) a]

@[simp] theorem decodeTxn_tick :
    decodeTxn (packWord 0x4#4 d a) = require (d = 0 ∧ a.toNat < 0x80) (.tick (a.setWidth 7)) := by
  simp [decodeTxn, extractLsb'_zero, extractLsb'_eq_zero_iff (n := 7) (k := 9) a]

@[simp] theorem decodeTxn_pause :
    decodeTxn (packWord 0x5#4 d a) = require (d = 0 ∧ a.toNat < 2) (.pause (a.getLsbD 0)) := by
  simp [decodeTxn, extractLsb'_eq_zero_iff (n := 1) (k := 15) a]

@[simp] theorem decodeTxn_setup : decodeTxn (packWord 0x6#4 d a) =
    require (d = 0 ∧ a.toNat < 0x10) (.setup (a.setWidth 2) (a.getLsbD 2) (a.getLsbD 3)) := by
  simp [decodeTxn, extractLsb'_zero, extractLsb'_eq_zero_iff (n := 4) (k := 12) a]

@[simp] theorem decodeTxn_shutdown : decodeTxn (packWord 0x7#4 d a) = require (d = 0 ∧ a = 0) .shutdown := by
  simp [decodeTxn]

@[simp] theorem decodeTxn_fbrd :
    decodeTxn (packWord 0x8#4 d a) = require (d = 0 ∧ a.toNat < 0xE000) (.fbrd a) := by
  simp [decodeTxn]

@[simp] theorem decodeTxn_stepdone :
    decodeTxn (packWord 0x9#4 d a) = some (.stepdone (fieldCost (packWord 0x9 d a))) := by
  simp [decodeTxn]

/-- No transaction has an OP from 0xA up. -/
theorem decodeTxn_reservedOp {op : BitVec 4} (h : 0xA ≤ op.toNat) : decodeTxn (packWord op d a) = none := by
  obtain ⟨n, hn⟩ := Nat.exists_eq_add_of_le' h
  simp [decodeTxn, hn]

end

theorem decodeTxn_of_rsv {w : Word} (h : fieldRsv w ≠ 0) : decodeTxn w = none := if_pos h

/-- The OP values that R81 reserves, and its ten. -/
theorem op_cases (op : BitVec 4) :
    0xA ≤ op.toNat ∨ op = 0x0#4 ∨ op = 0x1#4 ∨ op = 0x2#4 ∨ op = 0x3#4 ∨ op = 0x4#4 ∨ op = 0x5#4 ∨ op = 0x6#4 ∨
      op = 0x7#4 ∨ op = 0x8#4 ∨ op = 0x9#4 := by
  revert op
  decide

/-- A word whose RSV is 0 is packed from some fields. -/
theorem exists_packWord {w : Word} (h : fieldRsv w = 0) : ∃ op d a, w = packWord op d a :=
  ⟨_, _, _, (packWord_fields h).symm⟩

/-- A word is packed from the values of its fields. -/
theorem packWord_eq {w : Word} {op : BitVec 4} {d : Byte} {a : Addr} (hrsv : fieldRsv w = 0)
    (hop : (fieldOp w).toNat = op.toNat) (hd : fieldD w = d) (ha : fieldA w = a) : packWord op d a = w := by
  rw [← BitVec.eq_of_toNat_eq hop, ← hd, ← ha, packWord_fields hrsv]

/-- A word is read as the row of its transaction. -/
theorem decode_of_decodeTxn {w : Word} {i : Instr} (t : Txn) (h : decodeTxn w = some t) (hrow : t.row = i) :
    decode w = some i := by
  rw [decode, h, ← hrow, Option.map_some]

/-! ## The legal words (R86, R93) -/

/-- Settles O7, OP by OP. -/
theorem reservedWordsRefused : Obligations.ReservedWordsRefused := by
  refine ⟨fun w => ?_, fun s r rest hr hw => Machine.step_reserved hr hw⟩
  rw [decode, Option.map_eq_none_iff]
  by_cases hrsv : fieldRsv w = 0
  · obtain ⟨op, d, a, rfl⟩ := exists_packWord hrsv
    rcases op_cases op with hop | rfl | rfl | rfl | rfl | rfl | rfl | rfl | rfl | rfl | rfl
    · exact iff_of_true (decodeTxn_reservedOp d a hop) (.inl (by simpa))
    all_goals simp [imp_iff_not_or, Nat.succ_le_iff]
  · exact iff_of_true (decodeTxn_of_rsv hrsv) (.inr (.inl hrsv))

/-- A word that holds a row's OP is read by its D and A fields. -/
theorem decode_of_fields {w : Word} {i : Instr} (hrsv : fieldRsv w = 0) (op : BitVec 4) (t : Txn)
    (hop : (fieldOp w).toNat = op.toNat) (h : decodeTxn (packWord op (fieldD w) (fieldA w)) = some t)
    (hrow : t.row = i) : decode w = some i :=
  decode_of_decodeTxn t (packWord_eq hrsv hop rfl rfl ▸ h) hrow

/-- The D and A fields are the low 24 bits (R83). -/
theorem fieldCost_packWord_fields (op : BitVec 4) (w : Word) :
    fieldCost (packWord op (fieldD w) (fieldA w)) = w.setWidth 24 := by
  obtain ⟨hd, ha⟩ := fieldCost_eq w
  rw [← hd, ← ha, fieldCost_packWord, fieldCost, extractLsb'_zero]

/-- Settles O2, row by row. -/
theorem rowPatterns : Obligations.RowPatterns := by
  intro w hrsv
  have dec {i : Instr} := decode_of_fields (i := i) hrsv
  refine ⟨?rdRom, ?rdRam, ?rdMirror, ?rdOob, ?wrRom, ?wrRam, ?wrMirror, ?wrOob, ?in0, ?in1, ?in2, ?in3, ?inUnmapped,
    ?out2, ?out3, ?out4, ?out5, ?outUnmapped, ?tick, ?pause, ?setup, ?shutdown, ?fbrd, ?stepdone⟩
  case rdRom => exact fun ho hd ha => dec 0x0 (.memrd _) ho (by simp [hd]) (rowOfRead_rom ha)
  case rdRam => exact fun ho hd ha ha' => dec 0x0 (.memrd _) ho (by simp [hd]) (rowOfRead_ram ha ha')
  case rdMirror => exact fun ho hd ha ha' => dec 0x0 (.memrd _) ho (by simp [hd]) (rowOfRead_mirror ha ha')
  case rdOob => exact fun ho hd ha => dec 0x0 (.memrd _) ho (by simp [hd]) (rowOfRead_oob ha)
  case wrRom => exact fun ho ha => dec 0x1 (.memwr _ _) ho (by simp) (rowOfWrite_rom _ ha)
  case wrRam => exact fun ho ha ha' => dec 0x1 (.memwr _ _) ho (by simp) (rowOfWrite_ram _ ha ha')
  case wrMirror => exact fun ho ha ha' => dec 0x1 (.memwr _ _) ho (by simp) (rowOfWrite_mirror _ ha ha')
  case wrOob => exact fun ho ha => dec 0x1 (.memwr _ _) ho (by simp) (rowOfWrite_oob _ ha)
  case in0 => exact fun ho hd ha => dec 0x2 (.iord 0) ho (by simp [hd, ha]) rfl
  case in1 => exact fun ho hd ha => dec 0x2 (.iord 1) ho (by simp [hd, ha]) rfl
  case in2 => exact fun ho hd ha => dec 0x2 (.iord 2) ho (by simp [hd, ha]) rfl
  case in3 => exact fun ho hd ha => dec 0x2 (.iord 3) ho (by simp [hd, ha]) rfl
  case inUnmapped =>
    exact fun ho hd hn ha => dec 0x2 (.iord _) ho (by simp [hd, ha])
      (rowOfIord_unmapped (by simpa [Nat.mod_eq_of_lt ha] using hn))
  case out2 => exact fun ho ha => dec 0x3 (.iowr 2 _) ho (by simp [ha]) rfl
  case out3 => exact fun ho ha => dec 0x3 (.iowr 3 _) ho (by simp [ha]) rfl
  case out4 => exact fun ho ha => dec 0x3 (.iowr 4 _) ho (by simp [ha]) rfl
  case out5 => exact fun ho ha => dec 0x3 (.iowr 5 _) ho (by simp [ha]) rfl
  case outUnmapped =>
    exact fun ho hn ha => dec 0x3 (.iowr _ _) ho (by simp [ha])
      (rowOfIowr_unmapped _ (by simpa [Nat.mod_eq_of_lt ha] using hn))
  case tick => exact fun ho hd ha => dec 0x4 (.tick _) ho (by simp [hd, ha]) rfl
  case pause => exact fun ho hd ha => dec 0x5 (.pause _) ho (by simp [hd, ha]) rfl
  case setup => exact fun ho hd ha => dec 0x6 (.setup _ _ _) ho (by simp [hd, ha]) rfl
  case shutdown => exact fun ho hd ha => dec 0x7 .shutdown ho (by simp [hd, ha]) rfl
  case fbrd => exact fun ho hd ha => dec 0x8 (.fbrd _) ho (by simp [hd, ha]) rfl
  case stepdone =>
    exact fun ho => dec 0x9 (.stepdone (w.setWidth 24)) ho (by simp [fieldCost_packWord_fields]) rfl

/-! ## Decoder and encoder agree (R87) -/

theorem encode_pause_of_lt {a : Addr} (h : a.toNat < 2) : encode (.pause (a.getLsbD 0)) = packWord 0x5 0 a := by
  have hpad : 0#15 ++ a.setWidth 1 = a := zero_append_setWidth h
  have hbit : ∀ x : BitVec 1, encode (.pause ((0#15 ++ x).getLsbD 0)) = packWord 0x5 0 (0#15 ++ x) := by decide
  exact hpad ▸ hbit (a.setWidth 1)

theorem encode_setup_of_lt {a : Addr} (h : a.toNat < 0x10) :
    encode (.setup (a.setWidth 2) (a.getLsbD 2) (a.getLsbD 3)) = packWord 0x6 0 a := by
  have hpad : 0#12 ++ a.setWidth 4 = a := zero_append_setWidth h
  have hbits : ∀ x : BitVec 4, encode (.setup ((0#12 ++ x).setWidth 2) ((0#12 ++ x).getLsbD 2)
      ((0#12 ++ x).getLsbD 3)) = packWord 0x6 0 (0#12 ++ x) := by decide
  exact hpad ▸ hbits (a.setWidth 4)

/-- A transaction read from a word falls in a row that admits it, and the word is its encoding. -/
theorem row_of_decodeTxn {w : Word} {t : Txn} (h : decodeTxn w = some t) :
    t.row.wellFormed = true ∧ encode t.row = w := by
  have hrsv : fieldRsv w = 0 := by
    by_contra hne
    rw [decodeTxn_of_rsv hne] at h
    cases h
  obtain ⟨op, d, a, rfl⟩ := exists_packWord hrsv
  rcases op_cases op with hop | rfl | rfl | rfl | rfl | rfl | rfl | rfl | rfl | rfl | rfl
  · rw [decodeTxn_reservedOp d a hop] at h
    cases h
  · rw [decodeTxn_memrd, require_eq_some] at h
    obtain ⟨rfl, rfl⟩ := h
    exact rowOfRead_encode a
  · rw [decodeTxn_memwr] at h
    cases h
    exact rowOfWrite_encode a d
  · rw [decodeTxn_iord, require_eq_some] at h
    obtain ⟨⟨rfl, ha⟩, rfl⟩ := h
    obtain ⟨hwf, henc⟩ := rowOfIord_encode (a.setWidth 8)
    exact ⟨hwf, henc.trans (congrArg _ (zero_append_setWidth ha))⟩
  · rw [decodeTxn_iowr, require_eq_some] at h
    obtain ⟨ha, rfl⟩ := h
    obtain ⟨hwf, henc⟩ := rowOfIowr_encode (a.setWidth 8) d
    exact ⟨hwf, henc.trans (congrArg _ (zero_append_setWidth ha))⟩
  · rw [decodeTxn_tick, require_eq_some] at h
    obtain ⟨⟨rfl, ha⟩, rfl⟩ := h
    exact ⟨rfl, congrArg (packWord 0x4 0) (zero_append_setWidth ha)⟩
  · rw [decodeTxn_pause, require_eq_some] at h
    obtain ⟨⟨rfl, ha⟩, rfl⟩ := h
    exact ⟨rfl, encode_pause_of_lt ha⟩
  · rw [decodeTxn_setup, require_eq_some] at h
    obtain ⟨⟨rfl, ha⟩, rfl⟩ := h
    exact ⟨rfl, encode_setup_of_lt ha⟩
  · rw [decodeTxn_shutdown, require_eq_some] at h
    obtain ⟨⟨rfl, rfl⟩, rfl⟩ := h
    exact ⟨rfl, rfl⟩
  · rw [decodeTxn_fbrd, require_eq_some] at h
    obtain ⟨⟨rfl, ha⟩, rfl⟩ := h
    exact ⟨decide_eq_true ha, rfl⟩
  · rw [decodeTxn_stepdone] at h
    cases h
    obtain ⟨hd, ha⟩ := fieldCost_eq (packWord 0x9 d a)
    exact ⟨rfl, congrArg₂ (packWord 0x9) (hd.trans (fieldD_packWord _ _ _)) (ha.trans (fieldA_packWord _ _ _))⟩

/-- Settles O4, by the row of the transaction that the decoder reads. -/
theorem decodedWordReencodes : Obligations.DecodedWordReencodes := by
  intro w i h
  obtain ⟨t, ht, rfl⟩ := Option.map_eq_some_iff.mp h
  obtain ⟨hwf, hw⟩ := row_of_decodeTxn ht
  exact ⟨hwf, row_isEvent t, hw⟩

theorem decodeTxn_encode_pause (p : Bool) : decodeTxn (encode (.pause p)) = some (.pause p) := by
  revert p
  decide

theorem decodeTxn_encode_setup (ships : BitVec 2) (extra coin : Bool) :
    decodeTxn (encode (.setup ships extra coin)) = some (.setup ships extra coin) := by
  revert ships extra coin
  decide

/-- Settles O3, row by row: the transaction that the row's encoding was packed from is read back. -/
theorem transactionRoundTrip : Obligations.TransactionRoundTrip := by
  intro i hwf htxn
  cases i with
  | memrdRom a =>
    exact decode_of_decodeTxn (.memrd a) (by simp [encode]) (rowOfRead_rom (by simpa [Instr.wellFormed] using hwf))
  | memrdRam a =>
    obtain ⟨h, h'⟩ : 0x2000 ≤ a.toNat ∧ a.toNat < 0x4000 := by simpa [Instr.wellFormed] using hwf
    exact decode_of_decodeTxn (.memrd a) (by simp [encode]) (rowOfRead_ram h h')
  | memrdMirror a =>
    obtain ⟨h, h'⟩ : 0x4000 ≤ a.toNat ∧ a.toNat < 0x6000 := by simpa [Instr.wellFormed] using hwf
    exact decode_of_decodeTxn (.memrd a) (by simp [encode]) (rowOfRead_mirror h h')
  | memrdOob a =>
    exact decode_of_decodeTxn (.memrd a) (by simp [encode]) (rowOfRead_oob (by simpa [Instr.wellFormed] using hwf))
  | memwrRom a v =>
    exact decode_of_decodeTxn (.memwr a v) (by simp [encode])
      (rowOfWrite_rom v (by simpa [Instr.wellFormed] using hwf))
  | memwrRam a v =>
    obtain ⟨h, h'⟩ : 0x2000 ≤ a.toNat ∧ a.toNat < 0x4000 := by simpa [Instr.wellFormed] using hwf
    exact decode_of_decodeTxn (.memwr a v) (by simp [encode]) (rowOfWrite_ram v h h')
  | memwrMirror a v =>
    obtain ⟨h, h'⟩ : 0x4000 ≤ a.toNat ∧ a.toNat < 0x6000 := by simpa [Instr.wellFormed] using hwf
    exact decode_of_decodeTxn (.memwr a v) (by simp [encode]) (rowOfWrite_mirror v h h')
  | memwrOob a v =>
    exact decode_of_decodeTxn (.memwr a v) (by simp [encode])
      (rowOfWrite_oob v (by simpa [Instr.wellFormed] using hwf))
  | in0 => exact decode_of_decodeTxn (.iord 0) (by simp [encode]) rfl
  | in1 => exact decode_of_decodeTxn (.iord 1) (by simp [encode]) rfl
  | in2 => exact decode_of_decodeTxn (.iord 2) (by simp [encode]) rfl
  | in3 => exact decode_of_decodeTxn (.iord 3) (by simp [encode]) rfl
  | inUnmapped n =>
    exact decode_of_decodeTxn (.iord n) (by simp [encode, n.isLt])
      (rowOfIord_unmapped (by simpa [Instr.wellFormed] using hwf))
  | out2 v => exact decode_of_decodeTxn (.iowr 2 v) (by simp [encode]) rfl
  | out3 v => exact decode_of_decodeTxn (.iowr 3 v) (by simp [encode]) rfl
  | out4 v => exact decode_of_decodeTxn (.iowr 4 v) (by simp [encode]) rfl
  | out5 v => exact decode_of_decodeTxn (.iowr 5 v) (by simp [encode]) rfl
  | outUnmapped n v =>
    exact decode_of_decodeTxn (.iowr n v) (by simp [encode, n.isLt])
      (rowOfIowr_unmapped v (by simpa [Instr.wellFormed] using hwf))
  | tick x =>
    have hlt : (0#9 ++ x).toNat < 0x80 := (toNat_zero_append x).trans_lt x.isLt
    have hx : (0#9 ++ x).setWidth 7 = x := BitVec.setWidth_append_eq_right
    exact decode_of_decodeTxn (.tick x) (by simp [encode, hlt, hx]) rfl
  | pause p => exact decode_of_decodeTxn (.pause p) (decodeTxn_encode_pause p) rfl
  | setup ships extra coin =>
    exact decode_of_decodeTxn (.setup ships extra coin) (decodeTxn_encode_setup ships extra coin) rfl
  | shutdown => exact decode_of_decodeTxn .shutdown (by simp [encode]) rfl
  | fbrd p => exact decode_of_decodeTxn (.fbrd p) (by simpa [encode, Instr.wellFormed] using hwf) rfl
  | stepdone c => exact decode_of_decodeTxn (.stepdone c) (by simp [encode]) rfl
  | evtStep | evtIrq | evtPlay | evtStop | evtFrame | evtTickdone | evtDiag => cases htxn

/-! ## The event channel (R90) -/

theorem ofId_eq_some {n : BitVec 4} {c : Cue} (h : Cue.ofId n = some c) : c.id = n := by
  have hall : ∀ n, ∀ c ∈ Cue.ofId n, c.id = n := by decide
  exact hall n c h

theorem ofCode_eq_some {b : Byte} {c : DiagCode} (h : DiagCode.ofCode b = some c) : c.code = b := by
  unfold DiagCode.ofCode at h
  split_ifs at h with h1 h2 h3 <;> cases h
  · exact h1.symm
  · exact h2.symm
  · exact h3.symm

/-- An A field below 32 is PLAY's: its cue id, and its loop flag at bit 4. -/
theorem playField_eq {a : Addr} (h : a.toNat < 0x20) :
    0#11 ++ BitVec.ofBool (a.getLsbD 4) ++ a.setWidth 4 = a := by
  have hpad : 0#11 ++ a.setWidth 5 = a := zero_append_setWidth h
  have hbits : ∀ x : BitVec 5, 0#11 ++ BitVec.ofBool ((0#11 ++ x).getLsbD 4) ++ (0#11 ++ x).setWidth 4 =
      0#11 ++ x := by decide
  exact hpad ▸ hbits (a.setWidth 5)

/-- An A field below 16 is STOP's: its cue id. -/
theorem stopField_eq {a : Addr} (h : a.toNat < 0x10) : 0#12 ++ a.setWidth 4 = a := zero_append_setWidth h

/-- The event that an event row's word is read as. -/
theorem decodeEvent_encode {i : Instr} (h : i.isEvent = true) : decodeEvent (encode i) = some i := by
  cases i with
  | evtStep | evtFrame | evtTickdone => rfl
  | evtIrq v => simp [encode, decodeEvent]
  | evtPlay cue loop => cases cue <;> cases loop <;> rfl
  | evtStop cue => cases cue <;> rfl
  | evtDiag code loc => simp [encode, decodeEvent]
  | _ => cases h

/-- A word that the trace decoder reads is that event's. -/
theorem encode_of_decodeEvent {w : Word} {i : Instr} (h : decodeEvent w = some i) :
    i.isEvent = true ∧ encode i = w := by
  simp only [decodeEvent, ne_eq, ite_not] at h
  split at h
  case isFalse => cases h
  case isTrue hrsv =>
  split at h
  · next hop =>
    obtain ⟨⟨hd, ha⟩, rfl⟩ := require_eq_some.mp h
    exact ⟨rfl, packWord_eq (op := 0x0) hrsv hop hd ha⟩
  · next hop =>
    obtain ⟨ha, rfl⟩ := require_eq_some.mp h
    exact ⟨rfl, packWord_eq (op := 0x1) hrsv hop rfl ha⟩
  · next hop =>
    obtain ⟨c, hc, h⟩ := Option.bind_eq_some_iff.mp h
    obtain ⟨⟨hd, ha⟩, rfl⟩ := require_eq_some.mp h
    have hfield := playField_eq ((extractLsb'_eq_zero_iff (n := 5) (k := 11) _).mp ha)
    rw [← extractLsb'_zero, ← ofId_eq_some hc] at hfield
    exact ⟨rfl, packWord_eq (op := 0x2) hrsv hop hd hfield.symm⟩
  · next hop =>
    obtain ⟨c, hc, h⟩ := Option.bind_eq_some_iff.mp h
    obtain ⟨⟨hd, ha⟩, rfl⟩ := require_eq_some.mp h
    have hfield := stopField_eq ((extractLsb'_eq_zero_iff (n := 4) (k := 12) _).mp ha)
    rw [← extractLsb'_zero, ← ofId_eq_some hc] at hfield
    exact ⟨rfl, packWord_eq (op := 0x3) hrsv hop hd hfield.symm⟩
  · next hop =>
    obtain ⟨⟨hd, ha⟩, rfl⟩ := require_eq_some.mp h
    exact ⟨rfl, packWord_eq (op := 0x4) hrsv hop hd ha⟩
  · next hop =>
    obtain ⟨⟨hd, ha⟩, rfl⟩ := require_eq_some.mp h
    exact ⟨rfl, packWord_eq (op := 0x5) hrsv hop hd ha⟩
  · next hop =>
    obtain ⟨c, hc, rfl⟩ := Option.map_eq_some_iff.mp h
    exact ⟨rfl, packWord_eq (op := 0x6) hrsv hop (ofCode_eq_some hc).symm rfl⟩
  · cases h

/-- Settles O5, by the two directions. -/
theorem eventRoundTrip : Obligations.EventRoundTrip :=
  ⟨fun _ h => decodeEvent_encode h, fun _ _ h => encode_of_decodeEvent h⟩

/-- Settles O6: a word's value is the sum of its fields, and the cues and the codes are few. -/
theorem eventWords : Obligations.EventWords := by
  refine ⟨rfl, rfl, rfl, fun v => ?irq, fun c loop => ?play, fun c => ?stop, fun c a => ?diag, ?ids⟩
  case irq => exact (packWord_toNat 0x1 v 0).trans (by simp)
  case play => cases c <;> cases loop <;> rfl
  case stop => cases c <;> rfl
  case diag => exact (packWord_toNat 0x6 c.code a).trans (by simp)
  case ids => decide

end Sys2Proof
end

section
/-! PROOFS. The family of spec/30_encoding.md, acceptance (R88): where an instruction completes, which the table says,
and why it is refused elsewhere. -/

namespace Sys2Proof.Machine

/-- In each of R88's three columns a transaction completes where the table accepts it. -/
theorem completes_iff_accepted {i : Instr} {s : State} (hwf : i.wellFormed = true) (htxn : i.isEvent = false)
    (hoff : s.lifecycle = .off → s.phase = .idle) :
    Completes s i ↔ accepted i s.lifecycle s.phase = true := by
  have hcolumn : (s.lifecycle = .off ∧ s.phase = .idle) ∨ (s.lifecycle = .on ∧ s.phase = .idle) ∨
      (s.lifecycle = .on ∧ s.phase = .stepWait) := by
    cases hl : s.lifecycle <;> cases hp : s.phase <;> simp_all
  rcases hcolumn with ⟨hl, hp⟩ | ⟨hl, hp⟩ | ⟨hl, hp⟩
  all_goals
    cases i with
    | evtStep | evtIrq | evtPlay | evtStop | evtFrame | evtTickdone | evtDiag => cases htxn
    | _ =>
      simp [Completes, State.AcceptsBus, State.AcceptsHost, State.AcceptsPause, State.AcceptsSetup,
        State.AcceptsStepdone, accepted, hwf, hl, hp]

/-- A transaction with its row's operands is refused for the state alone. -/
theorem exec_refused_of_not_completes {i : Instr} {s : State} (hwf : i.wellFormed = true)
    (htxn : i.isEvent = false) (h : ¬ Completes s i) : exec i s = .refused .wrongState := by
  have hacc := fun ha => h ⟨hwf, ha⟩
  cases i with
  | memrdRom a =>
    have ha : a.toNat < 0x2000 := of_decide_eq_true hwf
    simp [exec, execMemrdRom, decodeAddr_rom ha, acceptIf_neg hacc]
  | memrdRam a =>
    obtain ⟨h, h'⟩ : 0x2000 ≤ a.toNat ∧ a.toNat < 0x4000 := by simpa [Instr.wellFormed] using hwf
    simp [exec, execMemrdRam, decodeAddr_ram h h', acceptIf_neg hacc]
  | memrdMirror a =>
    obtain ⟨h, h'⟩ : 0x4000 ≤ a.toNat ∧ a.toNat < 0x6000 := by simpa [Instr.wellFormed] using hwf
    simp [exec, execMemrdMirror, decodeAddr_mirror h h', acceptIf_neg hacc]
  | memrdOob a =>
    have ha : 0x6000 ≤ a.toNat := of_decide_eq_true hwf
    simp [exec, execMemrdOob, decodeAddr_oob ha, acceptIf_neg hacc]
  | memwrRom a v =>
    have ha : a.toNat < 0x2000 := of_decide_eq_true hwf
    simp [exec, execMemwrRom, decodeAddr_rom ha, acceptIf_neg hacc]
  | memwrRam a v =>
    obtain ⟨h, h'⟩ : 0x2000 ≤ a.toNat ∧ a.toNat < 0x4000 := by simpa [Instr.wellFormed] using hwf
    simp [exec, execMemwrRam, decodeAddr_ram h h', acceptIf_neg hacc]
  | memwrMirror a v =>
    obtain ⟨h, h'⟩ : 0x4000 ≤ a.toNat ∧ a.toNat < 0x6000 := by simpa [Instr.wellFormed] using hwf
    simp [exec, execMemwrMirror, decodeAddr_mirror h h', acceptIf_neg hacc]
  | memwrOob a v =>
    have ha : 0x6000 ≤ a.toNat := of_decide_eq_true hwf
    simp [exec, execMemwrOob, decodeAddr_oob ha, acceptIf_neg hacc]
  | inUnmapped n => exact (if_pos (of_decide_eq_true hwf)).trans (acceptIf_neg hacc)
  | outUnmapped n v => exact (if_pos (by simpa [Instr.wellFormed] using hwf)).trans (acceptIf_neg hacc)
  | fbrd p => exact (if_pos (of_decide_eq_true hwf)).trans (acceptIf_neg hacc)
  | in0 | in1 | in2 | in3 | out2 | out3 | out4 | out5 | tick | pause | setup | shutdown | stepdone =>
    exact acceptIf_neg hacc
  | evtStep | evtIrq | evtPlay | evtStop | evtFrame | evtTickdone | evtDiag => cases htxn

/-- Settles O10: the table accepts what completes, and the rest is refused for the state. -/
theorem acceptanceTable : Obligations.AcceptanceTable := by
  intro i s hwf htxn hoff
  have htable := completes_iff_accepted hwf htxn hoff
  refine ⟨fun hyes => ⟨after s i, exec_next_iff.mpr ⟨htable.mpr hyes, rfl⟩⟩, fun hno => ?_⟩
  exact exec_refused_of_not_completes hwf htxn (fun hc => by simp [htable.mp hc] at hno)

end Sys2Proof.Machine
end

section
/-! PROOFS. The family of spec/40_memory_ops.md: what the memory rows answer, the one byte a store changes, and what is
dropped with a DIAG (R100 to R108). -/

namespace Sys2Proof.Machine

/-! ## Over every instruction, and over every memory row -/

/-- Settles O20, by the frame of memory in the state an instruction leaves. -/
theorem onlyStoresChangeMemory : Obligations.OnlyStoresChangeMemory := by
  intro i s t k h hk hd hu
  obtain ⟨-, rfl⟩ := exec_next_iff.mp h
  exact after_memByte s hk hd hu

/-- The events an instruction adds to the trace are its own. -/
theorem exec_newEvents {i : Instr} {s t : State} (h : exec i s = .next t) : newEvents s t = emitted s i := by
  rw [newEvents, exec_trace h, List.drop_left]

/-- Settles O21, row by row: three of the rows emit a DIAG, and the other five nothing. -/
theorem memoryTransactionsEmitOnlyDiag : Obligations.MemoryTransactionsEmitOnlyDiag := by
  intro a v i s t hi h
  rw [exec_newEvents h]
  simp only [List.mem_cons, List.not_mem_nil, or_false] at hi
  rcases hi with rfl | rfl | rfl | rfl | rfl | rfl | rfl | rfl
  · exact .inl rfl
  · exact .inl rfl
  · exact .inl rfl
  · exact .inr ⟨.rdOob, rfl⟩
  · exact .inr ⟨.wrRom, rfl⟩
  · exact .inl rfl
  · exact .inl rfl
  · exact .inr ⟨.wrOob, rfl⟩

/-! ## Row by row -/

/-- Settles O13, region by region. -/
theorem memoryReads : Obligations.MemoryReads :=
  fun _ _ hon => ⟨fun ha => execMemrdRom_next.mpr ⟨ha, hon, rfl⟩,
    fun ha ha' => execMemrdRam_next.mpr ⟨⟨ha, ha'⟩, hon, rfl⟩,
    fun ha ha' => execMemrdMirror_next.mpr ⟨⟨ha, ha'⟩, hon, rfl⟩⟩

/-- Settles O14: from 0x6000 up both rows are accepted, and only emit and answer. -/
theorem outOfBounds : Obligations.OutOfBounds :=
  fun _ v _ hon ha => ⟨execMemrdOob_next.mpr ⟨ha, hon, rfl⟩, (execMemwrOob_next (v := v)).mpr ⟨ha, hon, rfl⟩⟩

/-- A store completed at index `k` changes that byte alone, whichever row it came by. -/
theorem store_changes_one_byte (s : State) (k : Nat) (v : Byte) {o : Host.Outcome State Fault Refusal}
    (h : o = .next ((s.writeMem k v).respond .noData)) :
    ∃ t, o = .next t ∧ t = { s with mem := t.mem, answer := .noData } ∧
      t.memByte k = v ∧ ∀ j, j ≠ k → t.memByte j = s.memByte j :=
  ⟨_, h, rfl, memByte_writeMem_same s k v, fun _ hj => memByte_writeMem_other s v hj⟩

/-- Settles O15: the RAM row and the mirror row both store, at their own index. -/
theorem memoryWrites : Obligations.MemoryWrites :=
  fun _ v s hon =>
    ⟨fun ha ha' => store_changes_one_byte s _ v (execMemwrRam_next.mpr ⟨⟨ha, ha'⟩, hon, rfl⟩),
      fun ha ha' => store_changes_one_byte s _ v (execMemwrMirror_next.mpr ⟨⟨ha, ha'⟩, hon, rfl⟩)⟩

/-- Settles O16: the dropped write only emits and answers, so that the read after it finds the state still ON and the
byte unchanged. -/
theorem romWriteDropped : Obligations.RomWriteDropped :=
  fun _ v _ hon ha =>
    ⟨_, (execMemwrRom_next (v := v)).mpr ⟨ha, hon, rfl⟩, rfl, execMemrdRom_next.mpr ⟨ha, hon, rfl⟩⟩

end Sys2Proof.Machine
end

section
/-! PROOFS. The family of spec/41_port_io.md: what devices 0, 1 and 2 answer (R121 to R123), and the devices that no row
maps (R125, R131). -/

namespace Sys2Proof.Machine

/-- The coin cue goes out exactly on a credit bit of 1 that the last read saw as 0 (R122). -/
theorem creditCommands_eq (previous credit : Bool) :
    creditCommands previous credit = if credit = true ∧ previous = false then [.play .coin false] else [] := by
  cases previous <;> cases credit <;> rfl

/-- Device 1's read, as the fields it changes (R122). -/
theorem in1With_eq (p : Params) (s : State) :
    in1With p s = { s with
      answer := .byte (controlsWord p.p1Map s.input)
      creditPrev := s.input.getLsbD 5
      trace := s.trace ++
        (if s.input.getLsbD 5 = true ∧ s.creditPrev = false then [.play .coin false] else []) } := by
  rw [← creditCommands_eq]
  rfl

/-- Settles O22: device 0 is accepted while ON, and only answers. -/
theorem statusRead : Obligations.StatusRead :=
  fun _ hon => execIn0_next.mpr ⟨hon, rfl⟩

/-- Settles O23: the word is `controlsWord`, and P1_MAP's positions differ (R132), so that none is overwritten. -/
theorem controlsRead : Obligations.ControlsRead :=
  fun s hon => ⟨controlsWord Config.params.p1Map s.input,
    execIn1_next.mpr ⟨hon, (in1With_eq Config.params s).symm⟩,
    controlsWord_bits Config.p1Map_bits_nodup s.input⟩

/-- Settles O25: the word is `dipWord`, and P2_MAP's positions differ (R132), so that none is overwritten. -/
theorem dipRead : Obligations.DipRead :=
  fun s hon => ⟨dipWord Config.params.p2Map s.dipShips s.dipExtra s.dipCoin s.input,
    execIn2_next.mpr ⟨hon, rfl⟩,
    dipWord_bits Config.p2Map_bits_nodup s.dipShips s.dipExtra s.dipCoin s.input⟩

/-- Settles O30: both rows only answer, at the devices that are theirs. -/
theorem unmappedDevices : Obligations.UnmappedDevices :=
  fun _ v _ hon => ⟨fun hn => execInUnmapped_next.mpr ⟨hn, hon, rfl⟩,
    fun hn => (execOutUnmapped_next (v := v)).mpr ⟨hn, hon, rfl⟩⟩

end Sys2Proof.Machine
end

section
/-! PROOFS. The family of spec/42_shift_register.md: the effect of device 4 and device 2 (R150 to R152), the window that
device 3 answers (R153), and the sprite sequence (R155). -/

namespace Sys2Proof.Machine

/-! ## The window, as a number and as two shifts (R153, R155) -/

/-- The window is R153's formula over the 16-bit number `{high, low}`. -/
theorem toNat_shiftWindow (high low : Byte) (offset : BitVec 3) :
    (shiftWindow high low offset).toNat = (high.toNat * 256 + low.toNat) / 2 ^ (8 - offset.toNat) % 256 := by
  have hword : (high ++ low : BitVec 16).toNat = high.toNat * 256 + low.toNat := by
    rw [BitVec.toNat_append, ← Nat.shiftLeft_add_eq_or_of_lt low.isLt, Nat.shiftLeft_eq]
  rw [shiftWindow, BitVec.toNat_setWidth, BitVec.toNat_ushiftRight, hword, Nat.shiftRight_eq_div_pow]

/-- Below bit `offset` the window shows the top bits of `low`, and from there up the low bits of `high`. -/
theorem shiftWindow_eq_or (high low : Byte) (offset : BitVec 3) :
    shiftWindow high low offset = (high <<< offset.toNat) ||| (low >>> (8 - offset.toNat)) := by
  have hoffset := offset.isLt
  refine BitVec.eq_of_getLsbD_eq fun i hi => ?_
  rw [shiftWindow_bit high low offset i hi, BitVec.getLsbD_append, BitVec.getLsbD_or, BitVec.getLsbD_shiftLeft,
    BitVec.getLsbD_ushiftRight]
  by_cases h : i < offset.toNat
  · have hindex : 8 - offset.toNat + i < 8 := by omega
    simp [h, hindex]
  · have hindex : ¬ 8 - offset.toNat + i < 8 := by omega
    have hbit : 8 - offset.toNat + i - 8 = i - offset.toNat := by omega
    have hlow : low.getLsbD (8 - offset.toNat + i) = false := BitVec.getLsbD_of_ge _ _ (not_lt.mp hindex)
    simp [h, hi, hindex, hbit, hlow]

/-! ## One device access -/

/-- Settles O26: device 3 is accepted while ON and only answers, with the window. -/
theorem shiftRead : Obligations.ShiftRead :=
  fun s hon => ⟨shiftWindow s.srHigh s.srLow s.srOffset, execIn3_next.mpr ⟨hon, rfl⟩,
    toNat_shiftWindow s.srHigh s.srLow s.srOffset, shiftWindow_bit s.srHigh s.srLow s.srOffset⟩

/-- Settles O27: device 4 writes the two data bytes alone, and device 2 the offset alone. -/
theorem shiftWrites : Obligations.ShiftWrites :=
  fun v _ hon => ⟨execOut4_next.mpr ⟨hon, rfl⟩, _, execOut2_next.mpr ⟨hon, rfl⟩, rfl,
    BitVec.toNat_setWidth 3 v⟩

/-! ## Sequences of accesses -/

/-- While ON, a bus transaction with its row's operands completes. -/
theorem completes_of_isBus {i : Instr} {s : State} (hon : s.lifecycle = .on) (hbus : isBus i = true)
    (hwf : i.wellFormed = true) : Completes s i := by
  refine ⟨hwf, ?_⟩
  cases i with
  | tick | pause | setup | shutdown | fbrd | stepdone => cases hbus
  | evtStep | evtIrq | evtPlay | evtStop | evtFrame | evtTickdone | evtDiag => cases hbus
  | _ => exact hon

/-- A bus transaction leaves LIFECYCLE unchanged. -/
theorem after_lifecycle_of_isBus {i : Instr} (s : State) (hbus : isBus i = true) :
    (after s i).lifecycle = s.lifecycle :=
  (after_sameSetup s (by rintro rfl; cases hbus) (by rintro x e c rfl; cases hbus)).lifecycle

/-- While ON, a run of bus transactions completes, and leaves their effects one after another. -/
theorem runInstrs_bus {is : List Instr} {s : State} (hon : s.lifecycle = .on)
    (his : ∀ i ∈ is, isBus i = true ∧ i.wellFormed = true) : runInstrs is s = .next (is.foldl after s) := by
  induction is generalizing s with
  | nil => rfl
  | cons i is ih =>
    obtain ⟨⟨hbus, hwf⟩, his⟩ := List.forall_mem_cons.mp his
    exact runInstrs_cons_next.mpr ⟨after s i, exec_next_iff.mpr ⟨completes_of_isBus hon hbus hwf, rfl⟩,
      ih ((after_lifecycle_of_isBus s hbus).trans hon) his⟩

/-- Settles O28: both runs complete, and each of the two accesses writes fields that the other leaves, so that either
order leaves the same state. -/
theorem shiftAndOffsetCommute : Obligations.ShiftAndOffsetCommute := by
  intro v k s hon
  have hcommute : [Instr.out2 k, .out4 v].foldl after s = [Instr.out4 v, .out2 k].foldl after s := rfl
  exact ⟨_, runInstrs_bus hon (by simp [isBus, Instr.wellFormed]),
    hcommute ▸ runInstrs_bus hon (by simp [isBus, Instr.wellFormed])⟩

/-- Settles O29: two shifts replace both data bytes, and the window over them is the two shifted bytes. -/
theorem spriteShiftSequence : Obligations.SpriteShiftSequence := by
  intro old new k s hon
  refine ⟨_, runInstrs_bus hon (by simp [isBus, Instr.wellFormed]), ?_⟩
  calc ([.out4 old, .out4 new, .out2 k, .in3].foldl after s).answer
    _ = .byte (shiftWindow new old (k.setWidth 3)) := rfl
    _ = .byte ((new <<< (k.toNat % 8)) ||| (old >>> (8 - k.toNat % 8))) := by
      rw [shiftWindow_eq_or, BitVec.toNat_setWidth]

end Sys2Proof.Machine
end

section
/-! PROOFS. The family of spec/43_sound_trigger.md: the commands of one write to a sound device (R172, R173), and how
often each goes out over any sequence of writes (R175). The sequence's commands are `commandsAlong` the latch's values;
each is counted at the one bit that its cue is mapped to (R171). -/

namespace Sys2Proof.Machine

/-! ## One write -/

/-- A mapped bit's command, by the bit's old and new value (R172). -/
theorem edgeCommand_of_bits (c : Cue) (old new : Bool) :
    edgeCommand (some c) (!old && new) (old && !new) =
      if old = false ∧ new = true then [.play c (decide (c = .ufo))]
      else if old = true ∧ new = false ∧ c = .ufo then [.stop .ufo] else [] := by
  cases old <;> cases new <;> simp [edgeCommand, beq_eq_decide]

/-- Settles O31: both rows are accepted while ON, and their commands are those of R172's loop, bit by bit. -/
theorem soundWrites : Obligations.SoundWrites := by
  unfold Obligations.SoundWrites
  intro commands v s hon
  have hcommands (map : List (Option Cue)) (old new : Byte) : commands map old new = edgeCommands map old new := by
    refine List.flatMap_congr fun i _ => ?_
    rw [risingBits_bit, fallingBits_bit]
    cases map.getD i none with
    | none => rfl
    | some c => exact (edgeCommand_of_bits c _ _).symm
  rw [hcommands, hcommands]
  exact ⟨execOut3_next.mpr ⟨hon, rfl⟩, execOut5_next.mpr ⟨hon, rfl⟩⟩

/-! ## The bit of a cue (R171) -/

/-- Bit `i` is mapped to the cue, and no other bit is. -/
def OnlyBitOf (map : List (Option Cue)) (c : Cue) (i : Nat) : Prop :=
  i < 8 ∧ ∀ j, map.getD j none = some c ↔ j = i

/-- A bit that is looked up with no cue as the default has a cue exactly where the map gives it one. -/
theorem getD_none_eq_some_iff {map : List (Option Cue)} {c : Cue} {j : Nat} :
    map.getD j none = some c ↔ map[j]? = some (some c) := by
  rw [List.getD_eq_getElem?_getD, Option.getD_eq_iff, or_iff_left nofun]

/-- Every cue in a device's map is one of the device's. -/
theorem mem_cues_of_getElem? {cues : List Cue} {map : List (Option Cue)} {c : Cue} {i : Nat}
    (hmap : CueMapFor cues map) (hi : map[i]? = some (some c)) : c ∈ cues := by
  simpa using hmap.2.2 _ (List.mem_of_getElem? hi)

/-- A list that holds an entry once holds it at one index. -/
theorem index_unique_of_count_eq_one {α : Type} [BEq α] [LawfulBEq α] {l : List α} {x : α} {i j : Nat}
    (hx : l.count x = 1) (hi : l[i]? = some x) (hj : l[j]? = some x) : i = j := by
  have hle {m n : Nat} (hm : l[m]? = some x) (hn : l[n]? = some x) : ¬ m < n := fun hlt => by
    obtain ⟨hm', hm⟩ := List.getElem?_eq_some_iff.mp hm
    obtain ⟨hn', hn⟩ := List.getElem?_eq_some_iff.mp hn
    have htwice : l.Duplicate x :=
      List.duplicate_iff_exists_distinct_get.mpr ⟨⟨m, hm'⟩, ⟨n, hn'⟩, hlt, hm.symm, hn.symm⟩
    have hcount : 2 ≤ l.count x := List.replicate_sublist_iff.mp (List.duplicate_iff_sublist.mp htwice)
    omega
  exact Nat.le_antisymm (not_lt.mp (hle hj hi)) (not_lt.mp (hle hi hj))

/-- A device's map places a cue at one bit, for it lists the cue once. -/
theorem onlyBitOf_of_getElem? {cues : List Cue} {map : List (Option Cue)} {c : Cue} {i : Nat}
    (hmap : CueMapFor cues map) (hi : map[i]? = some (some c)) : OnlyBitOf map c i := by
  have hc : map.count (some c) = 1 := hmap.2.1 c (mem_cues_of_getElem? hmap hi)
  have hlt : i < map.length := (List.getElem?_eq_some_iff.mp hi).1
  refine ⟨hmap.1 ▸ hlt, fun j => getD_none_eq_some_iff.trans ⟨fun hj => index_unique_of_count_eq_one hc hj hi, ?_⟩⟩
  rintro rfl
  exact hi

/-! ## Counting the commands of one write -/

/-- A count of the edge detector's commands that only the bits of cue `c` add to is the count at that cue's bit. -/
theorem countP_edgeCommands {map : List (Option Cue)} {c : Cue} {i : Nat} (hbit : OnlyBitOf map c i)
    {p : Event → Bool} (hother : ∀ c' ≠ c, ∀ rise fall, (edgeCommand (some c') rise fall).countP p = 0)
    (old new : Byte) :
    (edgeCommands map old new).countP p =
      (edgeCommand (some c) (!old.getLsbD i && new.getLsbD i) (old.getLsbD i && !new.getLsbD i)).countP p := by
  obtain ⟨hi, hmap⟩ := hbit
  have hzero (j : Nat) (hj : j ≠ i) (rise fall : Bool) : (edgeCommand (map.getD j none) rise fall).countP p = 0 := by
    cases hcue : map.getD j none with
    | none => rfl
    | some c' =>
      have hne : c' ≠ c := by
        rintro rfl
        exact hj ((hmap j).mp hcue)
      exact hother c' hne rise fall
  have hone : (List.range 8).count i = 1 := List.count_eq_one_of_mem List.nodup_range (List.mem_range.mpr hi)
  rw [edgeCommands, List.countP_flatMap, Function.comp_def,
    List.sum_map_eq_nsmul_single i _ fun j hj _ => hzero j hj _ _, hone, one_nsmul, (hmap i).mpr rfl,
    risingBits_bit, fallingBits_bit]

/-- Of the commands the edge detector gives, `p` counts the cue's PLAYs and no others. -/
structure CountsPlay (c : Cue) (p : Event → Bool) : Prop where
  play : ∀ c', p (.play c' (c' == .ufo)) = (c' == c)
  stop : p (.stop .ufo) = false

/-- Of the commands the edge detector gives, `p` counts UFO's STOPs and no others. -/
structure CountsStop (p : Event → Bool) : Prop where
  play : ∀ c loop, p (.play c loop) = false
  stop : p (.stop .ufo) = true

theorem countP_edgeCommands_play {map : List (Option Cue)} {c : Cue} {i : Nat} (hbit : OnlyBitOf map c i)
    {p : Event → Bool} (hp : CountsPlay c p) (old new : Byte) :
    (edgeCommands map old new).countP p = if !old.getLsbD i && new.getLsbD i then 1 else 0 := by
  rw [countP_edgeCommands hbit]
  · cases old.getLsbD i <;> cases new.getLsbD i <;> simp [edgeCommand, hp.play, hp.stop]
  · intro c' hne rise fall
    simp only [edgeCommand]
    split_ifs <;> simp [hp.play, hp.stop, hne]

theorem countP_edgeCommands_stop {map : List (Option Cue)} {i : Nat} (hbit : OnlyBitOf map .ufo i)
    {p : Event → Bool} (hp : CountsStop p) (old new : Byte) :
    (edgeCommands map old new).countP p = if old.getLsbD i && !new.getLsbD i then 1 else 0 := by
  rw [countP_edgeCommands hbit]
  · cases old.getLsbD i <;> cases new.getLsbD i <;> simp [edgeCommand, hp.play, hp.stop]
  · intro c' hne rise fall
    cases rise <;> simp [edgeCommand, hp.play, hne]

/-! ## The commands of a sequence of writes (R175) -/

/-- The commands of the edge detector along a latch's values, oldest first. -/
def commandsAlong (map : List (Option Cue)) : Byte → List Byte → List Event
  | _, [] => []
  | old, v :: vs => edgeCommands map old v ++ commandsAlong map v vs

/-- A run of writes to one device adds the commands along its latch's values to the trace, where `row` is the write to
the device and `latch` its latch. -/
theorem newEvents_writes {map : List (Option Cue)} {row : Byte → Instr} {latch : State → Byte}
    (hlatch : ∀ v s, latch (after s (row v)) = v) (hemit : ∀ v s, emitted s (row v) = edgeCommands map (latch s) v)
    {vs : List Byte} {s t : State} (h : runInstrs (vs.map row) s = .next t) :
    newEvents s t = commandsAlong map (latch s) vs := by
  suffices htrace : t.trace = s.trace ++ commandsAlong map (latch s) vs by rw [newEvents, htrace, List.drop_left]
  induction vs generalizing s with
  | nil =>
    cases h
    exact (List.append_nil _).symm
  | cons v vs ih =>
    obtain ⟨u, hu, h⟩ := runInstrs_cons_next.mp h
    have hlatchU : latch u = v := by
      obtain ⟨-, rfl⟩ := exec_next_iff.mp hu
      exact hlatch v s
    rw [ih h, exec_trace hu, hemit, hlatchU, commandsAlong, List.append_assoc]

theorem newEvents_out3 {vs : List Byte} {s t : State} (h : runInstrs (vs.map .out3) s = .next t) :
    newEvents s t = commandsAlong Config.params.cueMap3 s.latch3 vs :=
  newEvents_writes (latch := State.latch3) (fun _ _ => rfl) (fun _ _ => rfl) h

theorem newEvents_out5 {vs : List Byte} {s t : State} (h : runInstrs (vs.map .out5) s = .next t) :
    newEvents s t = commandsAlong Config.params.cueMap5 s.latch5 vs :=
  newEvents_writes (latch := State.latch5) (fun _ _ => rfl) (fun _ _ => rfl) h

/-- The PLAYs of a mapped bit's cue are as many as its rising edges. -/
theorem countP_commandsAlong_play {map : List (Option Cue)} {c : Cue} {i : Nat} (hbit : OnlyBitOf map c i)
    {p : Event → Bool} (hp : CountsPlay c p) (old : Byte) (vs : List Byte) :
    (commandsAlong map old vs).countP p = risingEdges i old vs := by
  induction vs generalizing old with
  | nil => rfl
  | cons v vs ih => rw [commandsAlong, List.countP_append, countP_edgeCommands_play hbit hp, ih, risingEdges]

/-- The STOPs are as many as the falling edges of UFO's bit. -/
theorem countP_commandsAlong_stop {map : List (Option Cue)} {i : Nat} (hbit : OnlyBitOf map .ufo i)
    {p : Event → Bool} (hp : CountsStop p) (old : Byte) (vs : List Byte) :
    (commandsAlong map old vs).countP p = fallingEdges i old vs := by
  induction vs generalizing old with
  | nil => rfl
  | cons v vs ih => rw [commandsAlong, List.countP_append, countP_edgeCommands_stop hbit hp, ih, fallingEdges]

/-- A device without UFO among its cues stops nothing (R173). -/
theorem countP_isStop_commandsAlong {cues : List Cue} {map : List (Option Cue)} (hmap : CueMapFor cues map)
    (hufo : Cue.ufo ∉ cues) (old : Byte) (vs : List Byte) : (commandsAlong map old vs).countP isStop = 0 := by
  induction vs generalizing old with
  | nil => rfl
  | cons v vs ih =>
    have hwrite : (edgeCommands map old v).countP isStop = 0 := by
      refine List.countP_eq_zero.mpr fun e he => ?_
      obtain ⟨j, -, c, hc, ⟨-, -, rfl⟩ | ⟨-, -, rfl, -⟩⟩ := mem_edgeCommands.mp he
      · exact Bool.false_ne_true
      · exact absurd (mem_cues_of_getElem? hmap (getD_none_eq_some_iff.mp hc)) hufo
    rw [commandsAlong, List.countP_append, hwrite, ih]

/-! ### The counts that R175 speaks of -/

theorem countsPlay_isPlayOf (c : Cue) : CountsPlay c (isPlayOf c) := ⟨fun _ => rfl, rfl⟩

theorem countsPlay_beq (c : Cue) : CountsPlay c (· == .play c (decide (c = .ufo))) :=
  ⟨fun c' => by cases c <;> cases c' <;> rfl, rfl⟩

theorem countsStop_isStop : CountsStop isStop := ⟨fun _ _ => rfl, rfl⟩

theorem countsStop_beq : CountsStop (· == .stop .ufo) := ⟨fun _ _ => rfl, rfl⟩

/-- Settles O33: the commands along the latch's values, counted at the bit of their cue; UFO is a cue of device 3
alone. -/
theorem cuesPlayOncePerRisingEdge : Obligations.CuesPlayOncePerRisingEdge := by
  refine ⟨fun vs s t h i c hi => ?_, fun vs s t h => ⟨fun i c hi => ?_, ?_⟩⟩
  · rw [newEvents_out3 h]
    have hbit := onlyBitOf_of_getElem? Config.cueMap3_legal hi
    refine ⟨countP_commandsAlong_play hbit (countsPlay_isPlayOf c) _ _,
      countP_commandsAlong_play hbit (countsPlay_beq c) _ _, ?_⟩
    rintro rfl
    exact ⟨countP_commandsAlong_stop hbit countsStop_isStop _ _, countP_commandsAlong_stop hbit countsStop_beq _ _⟩
  · rw [newEvents_out5 h]
    have hbit := onlyBitOf_of_getElem? Config.cueMap5_legal hi
    have hne : c ≠ .ufo := by
      rintro rfl
      exact absurd (mem_cues_of_getElem? Config.cueMap5_legal hi) (by decide)
    have hloop : false = decide (c = .ufo) := (decide_eq_false hne).symm
    rw [hloop]
    exact ⟨countP_commandsAlong_play hbit (countsPlay_isPlayOf c) _ _,
      countP_commandsAlong_play hbit (countsPlay_beq c) _ _⟩
  · rw [newEvents_out5 h]
    exact countP_isStop_commandsAlong Config.cueMap5_legal (by decide) _ _

end Sys2Proof.Machine
end

section
/-! PROOFS. The family of spec/44_tick_scheduler.md: what TICK and STEPDONE do (R191 to R199, R207), that a bus
transaction touches none of it (R200, R201), and what follows over runs: one of each interrupt in a tick (R203), the
account of the cycles (R204), and the tick that never ends (R206). -/

namespace Sys2Proof.Machine

/-! ## Kinds of transaction -/

theorem isCpu_cases {i : Instr} (h : isCpu i = true) : (∃ c, i = .stepdone c) ∨ isBus i = true := by
  cases i with
  | stepdone c => exact .inl ⟨c, rfl⟩
  | _ => exact .inr h

theorem isTickWork_cases {i : Instr} (h : isTickWork i = true) :
    (∃ x, i = .tick x) ∨ (∃ c, i = .stepdone c) ∨ isBus i = true := by
  cases i with
  | tick x => exact .inl ⟨x, rfl⟩
  | _ => exact .inr (isCpu_cases h)

/-! ## The bus (R200) -/

/-- A bus transaction writes memory, the shift register, the latches and CREDIT_PREV alone, beside the trace
and the answer. -/
theorem after_frame_of_isBus {i : Instr} (s : State) (hbus : isBus i = true) :
    SameSchedule s (after s i) ∧ SameLife s (after s i) ∧ SameInputs s (after s i) ∧ SamePixels s (after s i) ∧
      SameInterface s (after s i) := by
  cases i with
  | tick | pause | setup | shutdown | fbrd | stepdone => cases hbus
  | evtStep | evtIrq | evtPlay | evtStop | evtFrame | evtTickdone | evtDiag => cases hbus
  | _ => exact ⟨⟨rfl, rfl, rfl, rfl⟩, ⟨rfl, rfl⟩, ⟨rfl, rfl, rfl, rfl⟩, fun _ => rfl, ⟨rfl, rfl, rfl⟩⟩

theorem after_sameSchedule_of_isBus {i : Instr} (s : State) (hbus : isBus i = true) :
    SameSchedule s (after s i) :=
  (after_frame_of_isBus s hbus).1

/-- A bus transaction emits only DIAG, PLAY and STOP. -/
theorem mem_emitted_of_isBus {i : Instr} {s : State} {e : Event} (hbus : isBus i = true) (he : e ∈ emitted s i) :
    (∃ code a, e = .diag code a) ∨ (∃ c loop, e = .play c loop) ∨ ∃ c, e = .stop c := by
  have hedge {map : List (Option Cue)} {old new : Byte} (he : e ∈ edgeCommands map old new) :
      (∃ c loop, e = .play c loop) ∨ ∃ c, e = .stop c := by
    obtain ⟨_, -, c, -, ⟨-, -, rfl⟩ | ⟨-, -, -, rfl⟩⟩ := mem_edgeCommands.mp he
    · exact .inl ⟨c, _, rfl⟩
    · exact .inr ⟨_, rfl⟩
  cases i with
  | tick | pause | setup | shutdown | fbrd | stepdone => cases hbus
  | evtStep | evtIrq | evtPlay | evtStop | evtFrame | evtTickdone | evtDiag => cases hbus
  | memrdOob | memwrRom | memwrOob => exact .inl ⟨_, _, List.mem_singleton.mp he⟩
  | in1 =>
    rw [emitted, creditCommands_eq] at he
    split at he
    · exact .inr (.inl ⟨_, _, List.mem_singleton.mp he⟩)
    · cases he
  | out3 | out5 => exact .inr (hedge he)
  | _ => cases he

/-- Settles O43: the frame of the bus, and its events. -/
theorem busLeavesTheSchedule : Obligations.BusLeavesTheSchedule := by
  intro i s t hbus h
  have hevents : ∀ e ∈ newEvents s t, _ := fun e he => mem_emitted_of_isBus hbus (exec_newEvents h ▸ he)
  obtain ⟨-, rfl⟩ := exec_next_iff.mp h
  obtain ⟨hschedule, hlife, hinputs, hpixels, hinterface⟩ := after_frame_of_isBus s hbus
  exact ⟨hschedule, hlife, hinputs, hpixels, hinterface, hevents⟩

theorem count_tickdone_emitted_of_isBus {i : Instr} (s : State) (hbus : isBus i = true) :
    (emitted s i).count .tickdone = 0 :=
  List.count_eq_zero.mpr fun he => by
    obtain ⟨_, _, h⟩ | ⟨_, _, h⟩ | ⟨_, h⟩ := mem_emitted_of_isBus hbus he <;> cases h

theorem frameSync_emitted_of_isBus {i : Instr} (s : State) (hbus : isBus i = true) :
    frameSync (emitted s i) = [] :=
  List.filter_eq_nil_iff.mpr fun e he => by
    obtain ⟨_, _, rfl⟩ | ⟨_, _, rfl⟩ | ⟨_, rfl⟩ := mem_emitted_of_isBus hbus he <;> exact Bool.false_ne_true

/-! ## TICK (R191 to R194, R207) -/

/-- Settles O9: no request is the step's first case. -/
theorem stepWaitsForARequest : Obligations.StepWaitsForARequest :=
  fun _ h => step_wait h

/-- Settles O34: TICK is accepted, and takes its paused branch. -/
theorem pausedTick : Obligations.PausedTick := by
  intro x s hon hidle hp
  refine execTick_next.mpr ⟨⟨hon, hidle⟩, ?_⟩
  rw [tickWith, if_pos hp]
  rfl

/-- Settles O35: TICK is accepted, and its loop test asks for a step or ends the tick. -/
theorem unpausedTick : Obligations.UnpausedTick := by
  intro x s hon hidle hp
  have hrun : ¬ s.paused = true := by simp [hp]
  refine ⟨fun hc => execTick_next.mpr ⟨⟨hon, hidle⟩, ?_⟩, fun hc => execTick_next.mpr ⟨⟨hon, hidle⟩, ?_⟩⟩
  · rw [tickWith, if_neg hrun, loopTest, if_pos hc]
    rfl
  · rw [tickWith, if_neg hrun, loopTest, if_neg (Nat.not_le.mpr hc)]
    rfl

/-! ## STEPDONE (R195 to R199) -/

/-- The loop test after a step: within the budget the tick goes on, and past it the overshoot is carried. -/
theorem stepdoneWith_loop (p : Params) (c : BitVec 24) (s : State) :
    (s.cycles + c.toNat ≤ p.cyclesPerTick ∧ (stepdoneWith p c s).cycles = s.cycles + c.toNat ∧
      (stepdoneWith p c s).phase = .stepWait) ∨
    (p.cyclesPerTick < s.cycles + c.toNat ∧
      (stepdoneWith p c s).cycles = s.cycles + c.toNat - p.cyclesPerTick ∧ (stepdoneWith p c s).phase = .idle) := by
  rw [stepdoneWith_eq _ _ _ _ rfl]
  rcases le_or_gt (s.cycles + c.toNat) p.cyclesPerTick with h | h
  · exact .inl ⟨h, if_pos h, if_pos h⟩
  · exact .inr ⟨h, if_neg h.not_ge, if_neg h.not_ge⟩

theorem stepdoneWith_midFired (p : Params) (c : BitVec 24) (s : State) :
    (stepdoneWith p c s).midFired = (s.midFired || decide (p.midThreshold ≤ s.cycles + c.toNat)) := by
  rw [stepdoneWith_eq _ _ _ _ rfl]

theorem stepdoneWith_endFired (p : Params) (c : BitVec 24) (s : State) :
    (stepdoneWith p c s).endFired = (s.endFired || decide (p.cyclesPerTick ≤ s.cycles + c.toNat)) := by
  rw [stepdoneWith_eq _ _ _ _ rfl]

/-- STEPDONE converts the frame in the end check alone (R197). -/
theorem stepdoneWith_fb_of_not_fired {p : Params} {c : BitVec 24} {s : State}
    (h : ¬ (s.endFired = false ∧ p.cyclesPerTick ≤ s.cycles + c.toNat)) : (stepdoneWith p c s).fb = s.fb := by
  rw [stepdoneWith_eq _ _ _ _ rfl]
  exact if_neg h

/-- Settles O36: the flags and the events by the two checks, the count and the phase by the loop test. -/
theorem stepDone : Obligations.StepDone := by
  intro c s hon hwait n B mid fin
  refine ⟨stepdoneWith Config.params c s, execStepdone_next.mpr ⟨⟨hon, hwait⟩, rfl⟩, ?_⟩
  have hmid := (stepdoneWith_midFired Config.params c s).trans (or_fired _ _)
  have hfin := (stepdoneWith_endFired Config.params c s).trans (or_fired _ _)
  have htrace := congrArg State.trace (stepdoneWith_eq Config.params c s n rfl)
  have hsame := stepdoneWith_sameSetup Config.params c s
  refine ⟨fun h => hmid.trans (if_pos h), fun h => hmid.trans (if_neg h), fun h => hfin.trans (if_pos h),
    fun h => hfin.trans (if_neg h),
    ⟨_, _, htrace, fun h => if_pos h, fun h => if_neg h, fun h => if_pos h, fun h => if_neg h⟩,
    fun h => ?within, fun h => ?past,
    fun h => fbPixel_congr (stepdoneWith_fb_of_not_fired h) hsame.allocDraws, ?frame⟩
  case within =>
    rcases stepdoneWith_loop Config.params c s with ⟨-, hloop⟩ | ⟨hover, -⟩
    · exact hloop
    · exact absurd h hover.not_ge
  case past =>
    rcases stepdoneWith_loop Config.params c s with ⟨hin, -⟩ | ⟨-, hloop⟩
    · exact absurd h hin.not_gt
    · exact hloop
  case frame =>
    rw [stepdoneWith_eq _ _ _ n rfl]
    exact ⟨rfl, fun _ => rfl, ⟨rfl, rfl, rfl⟩, ⟨rfl, rfl⟩, rfl, ⟨rfl, rfl, rfl, rfl⟩, ⟨rfl, rfl⟩, ⟨rfl, rfl, rfl⟩⟩

/-- Settles O41: the tick ends past the budget, which the count before the step did not exceed. -/
theorem carryOfTheLastStep : Obligations.CarryOfTheLastStep := by
  intro c s t hbudget h hidle
  obtain ⟨-, rfl⟩ := execStepdone_next.mp h
  rcases stepdoneWith_loop Config.params c s with ⟨-, -, hp⟩ | ⟨hover, hcycles, -⟩
  · cases hp.symm.trans hidle
  · omega

/-! ### Its events -/

theorem count_tickdone_emitted_stepdone (s : State) (c : BitVec 24) :
    (emitted s (.stepdone c)).count .tickdone =
      if s.cycles + c.toNat ≤ Config.params.cyclesPerTick then 0 else 1 := by
  simp only [emitted]
  split_ifs <;> rfl

theorem frameSync_emitted_stepdone (s : State) (c : BitVec 24) :
    frameSync (emitted s (.stepdone c)) =
      (if s.midFired = false ∧ Config.params.midThreshold ≤ s.cycles + c.toNat
        then [.irq Config.params.midVector] else []) ++
      (if s.endFired = false ∧ Config.params.cyclesPerTick ≤ s.cycles + c.toNat
        then [.irq Config.params.endVector, .frame] else []) := by
  simp only [emitted]
  split_ifs <;> rfl

/-- Settles O44: the bus and TICK emit other events and control none, and a STEPDONE asserts once in each check. -/
theorem interruptsOnlyAtStepDone : Obligations.InterruptsOnlyAtStepDone := by
  intro i s t v htxn h hv
  rw [exec_newEvents h] at hv ⊢
  by_cases hbus : isBus i = true
  · obtain ⟨_, _, he⟩ | ⟨_, _, he⟩ | ⟨_, he⟩ := mem_emitted_of_isBus hbus hv <;> cases he
  cases i with
  | stepdone c =>
    refine ⟨⟨c, rfl⟩, ?_, ?_⟩
    · have hsync : .irq v ∈ frameSync (emitted s (.stepdone c)) := List.mem_filter.mpr ⟨hv, rfl⟩
      rw [frameSync_emitted_stepdone, List.mem_append] at hsync
      refine hsync.imp (fun hmid => ?_) fun hend => ?_
      · simpa using (List.mem_ite_nil_right.mp hmid).2
      · simpa using (List.mem_ite_nil_right.mp hend).2
    · simp only [emitted]
      split_ifs <;> simp
  | tick x =>
    simp only [emitted] at hv
    split_ifs at hv <;> cases List.mem_singleton.mp hv
  | pause | setup | shutdown | fbrd => cases hv
  | evtStep | evtIrq | evtPlay | evtStop | evtFrame | evtTickdone | evtDiag => cases htxn
  | _ => exact absurd rfl hbus

/-! ## The events of a run -/

theorem newEvents_self (s : State) : newEvents s s = [] := List.drop_length

/-- A run only appends to the trace. -/
theorem runInstrs_trace {is : List Instr} {s t : State} (h : runInstrs is s = .next t) :
    t.trace = s.trace ++ newEvents s t := by
  obtain ⟨es, hes⟩ : ∃ es, t.trace = s.trace ++ es :=
    runInstrs_induction (P := fun u => ∃ es, u.trace = s.trace ++ es)
      (fun i _ u v ⟨es, hes⟩ hv => ⟨es ++ emitted u i, by rw [exec_trace hv, hes, List.append_assoc]⟩)
      ⟨[], (List.append_nil _).symm⟩ h
  rw [newEvents, hes, List.drop_left]

/-- The events of a run are its first instruction's, then the rest's. -/
theorem newEvents_cons {i : Instr} {is : List Instr} {s u t : State} (hu : exec i s = .next u)
    (h : runInstrs is u = .next t) : newEvents s t = emitted s i ++ newEvents u t := by
  rw [newEvents, runInstrs_trace h, exec_trace hu, List.append_assoc, List.drop_left]

/-! ## Steps of cost 0 (R206) -/

/-- Settles O42, by induction on the number of steps: each leaves the count within the budget. -/
theorem zeroCostNeverEnds : Obligations.ZeroCostNeverEnds := by
  intro n s hon hwait hbudget
  induction n generalizing s with
  | zero => exact ⟨s, rfl, hwait, rfl, by simp [newEvents_self]⟩
  | succ n ih =>
    have hstep : exec (.stepdone 0) s = .next (stepdoneWith Config.params 0 s) :=
      execStepdone_next.mpr ⟨⟨hon, hwait⟩, rfl⟩
    have hcost : (0 : BitVec 24).toNat = 0 := rfl
    obtain ⟨hcycles, hphase⟩ : (stepdoneWith Config.params 0 s).cycles = s.cycles ∧
        (stepdoneWith Config.params 0 s).phase = .stepWait := by
      rcases stepdoneWith_loop Config.params 0 s with ⟨-, hcycles, hphase⟩ | ⟨hover, -⟩
      · exact ⟨hcycles, hphase⟩
      · omega
    have hnone : (emitted s (.stepdone 0)).count .tickdone = 0 :=
      (count_tickdone_emitted_stepdone s 0).trans (if_pos hbudget)
    obtain ⟨t, ht, htp, htc, hev⟩ := ih (stepdoneWith Config.params 0 s)
      ((stepdoneWith_sameSetup _ _ _).lifecycle.trans hon) hphase (hcycles.trans_le hbudget)
    refine ⟨t, runInstrs_cons_next.mpr ⟨_, hstep, ht⟩, htp, htc.trans hcycles, ?_⟩
    rw [newEvents_cons hstep ht, List.mem_append, not_or]
    exact ⟨List.count_eq_zero.mp hnone, hev⟩

/-! ## The account of the cycles (R204) -/

theorem totalCost_cons (i : Instr) (is : List Instr) : totalCost (i :: is) = totalCost [i] + totalCost is := by
  cases i with
  | stepdone c => rfl
  | _ => exact (Nat.zero_add _).symm

theorem totalCost_of_isBus {i : Instr} (hbus : isBus i = true) : totalCost [i] = 0 := by
  cases i with
  | stepdone => cases hbus
  | _ => rfl

/-- One instruction keeps the account: what it adds to the count is its cost, less the budget where it ends a tick. -/
theorem cycles_accounted {i : Instr} {s t : State} (hi : isTickWork i = true) (hp : s.paused = false)
    (h : exec i s = .next t) :
    t.cycles + Config.params.cyclesPerTick * (emitted s i).count .tickdone = s.cycles + totalCost [i] := by
  obtain ⟨-, rfl⟩ := exec_next_iff.mp h
  rcases isTickWork_cases hi with ⟨x, rfl⟩ | ⟨c, rfl⟩ | hbus
  · rw [after]
    rcases tickWith_cases Config.params x s with ⟨hp', -⟩ | ⟨-, hc, e⟩ | ⟨-, hc, e⟩
    · cases hp.symm.trans hp'
    · simp [e, emitted, totalCost, hp, hc]
    · simp [e, emitted, totalCost, Nat.not_le.mpr hc, hc.le]
  · rw [after, count_tickdone_emitted_stepdone]
    rcases stepdoneWith_loop Config.params c s with ⟨hin, hcycles, -⟩ | ⟨hover, hcycles, -⟩
    · simp [hin, hcycles, totalCost]
    · simp [hover.not_ge, hcycles, totalCost, hover.le]
  · obtain ⟨hcycles, -⟩ := after_sameSchedule_of_isBus s hbus
    rw [hcycles, count_tickdone_emitted_of_isBus s hbus, totalCost_of_isBus hbus, Nat.mul_zero]

/-- The work of the tick loop does not touch PAUSED. -/
theorem exec_paused_of_isTickWork {i : Instr} {s t : State} (hi : isTickWork i = true) (h : exec i s = .next t) :
    t.paused = s.paused := by
  obtain ⟨-, rfl⟩ := exec_next_iff.mp h
  exact after_paused s (by rintro p rfl; cases hi)

/-- Settles O39, by induction on the run: each instruction keeps the account. -/
theorem cyclesAreAccountedFor : Obligations.CyclesAreAccountedFor := by
  intro is s t his hp h
  induction is generalizing s with
  | nil =>
    cases h
    simp [newEvents_self, totalCost]
  | cons i is ih =>
    obtain ⟨hi, his⟩ := List.forall_mem_cons.mp his
    obtain ⟨u, hu, h⟩ := runInstrs_cons_next.mp h
    have hrest := ih u his ((exec_paused_of_isTickWork hi hu).trans hp) h
    have hfirst := cycles_accounted hi hp hu
    rw [newEvents_cons hu h, List.count_append, Nat.mul_add, totalCost_cons]
    omega

/-! ## The bound on the carry (R204) -/

/-- Between ticks the count is at most `most`, and within one at most the budget. -/
structure CarryAtMost (most : Nat) (s : State) : Prop where
  between : s.phase = .idle → s.cycles ≤ most
  within : s.phase = .stepWait → s.cycles ≤ Config.params.cyclesPerTick

theorem carryAtMost_tickWith {most : Nat} {s : State} (hs : CarryAtMost most s) (hidle : s.phase = .idle)
    (x : BitVec 7) : CarryAtMost most (tickWith Config.params x s) := by
  rcases tickWith_cases Config.params x s with ⟨-, e⟩ | ⟨-, hc, e⟩ | ⟨-, -, e⟩ <;> rw [e]
  · exact { hs with }
  · exact ⟨nofun, fun _ => hc⟩
  · exact ⟨fun _ => (Nat.sub_le _ _).trans (hs.between hidle), nofun⟩

theorem carryAtMost_stepdoneWith {most : Nat} {s : State} (hs : CarryAtMost most s) (hwait : s.phase = .stepWait)
    {c : BitVec 24} (hc : c.toNat ≤ most) : CarryAtMost most (stepdoneWith Config.params c s) := by
  have hbudget := hs.within hwait
  rcases stepdoneWith_loop Config.params c s with ⟨hin, hcycles, hp⟩ | ⟨-, hcycles, hp⟩
  · exact ⟨fun h => (nomatch hp.symm.trans h), fun _ => hcycles.trans_le hin⟩
  · exact ⟨fun _ => by omega, fun h => nomatch hp.symm.trans h⟩

theorem exec_keeps_carryAtMost {most : Nat} {i : Instr} {s t : State} (hi : isTickWork i = true)
    (hcost : ∀ c, i = .stepdone c → c.toNat ≤ most) (hs : CarryAtMost most s) (h : exec i s = .next t) :
    CarryAtMost most t := by
  obtain ⟨⟨-, hacc⟩, rfl⟩ := exec_next_iff.mp h
  rcases isTickWork_cases hi with ⟨x, rfl⟩ | ⟨c, rfl⟩ | hbus
  · exact carryAtMost_tickWith hs hacc.2 x
  · exact carryAtMost_stepdoneWith hs hacc.2 (hcost c rfl)
  · obtain ⟨hcycles, -, -, hphase⟩ := after_sameSchedule_of_isBus s hbus
    exact ⟨fun hp => hcycles.trans_le (hs.between (hphase.symm.trans hp)),
      fun hp => hcycles.trans_le (hs.within (hphase.symm.trans hp))⟩

/-- Settles O40, by the invariant `CarryAtMost` over the run. -/
theorem carryNeverDrifts : Obligations.CarryNeverDrifts := by
  intro most is s t his hcost hidle hcarry h ht
  have hstart : CarryAtMost most s := ⟨fun _ => hcarry, fun hp => nomatch hidle.symm.trans hp⟩
  have hend : CarryAtMost most t := runInstrs_induction (P := CarryAtMost most)
    (fun i hi _ _ hu hv => exec_keeps_carryAtMost (his i hi) (fun c hc => hcost c (hc ▸ hi)) hu hv) hstart h
  exact hend.between ht

/-! ## One of each interrupt in a tick (R203) -/

/-- The assertions and the frame notice of a tick whose fired flags are `mid` and `fin`, in the order of R198. -/
def firedEvents (mid fin : Bool) : List Event :=
  (if mid then [.irq Config.params.midVector] else []) ++
  (if fin then [.irq Config.params.endVector, .frame] else [])

/-- The two checks complete what the flags stand for, in order, since the end check has not come first. -/
theorem firedEvents_append_checks {mid fin : Bool} (horder : fin = true → mid = true) (P Q : Prop) [Decidable P]
    [Decidable Q] :
    firedEvents mid fin ++
      ((if mid = false ∧ P then [.irq Config.params.midVector] else []) ++
        (if fin = false ∧ Q then [.irq Config.params.endVector, .frame] else [])) =
      firedEvents (mid || decide P) (fin || decide Q) := by
  cases fin with
  | true =>
    obtain rfl := horder rfl
    simp [firedEvents]
  | false => cases mid <;> simp [firedEvents]

/-- The flags in a tick that has asked for a step: mid fires before end, and the tick is over only once end has. -/
structure FlagsInTick (s : State) : Prop where
  midFirst : s.endFired = true → s.midFired = true
  ended : s.phase = .idle → s.endFired = true

theorem flagsInTick_stepdoneWith {s : State} (hs : FlagsInTick s) (c : BitVec 24) :
    FlagsInTick (stepdoneWith Config.params c s) := by
  constructor
  · rw [stepdoneWith_endFired, stepdoneWith_midFired]
    simp only [Bool.or_eq_true, decide_eq_true_eq]
    exact Or.imp hs.midFirst Config.midThreshold_le.trans
  · intro hidle
    rcases stepdoneWith_loop Config.params c s with ⟨-, -, hp⟩ | ⟨hover, -⟩
    · cases hp.symm.trans hidle
    · simp [stepdoneWith_endFired, hover.le]

/-- What the CPU core does in a tick keeps the flags in step with the assertions and frame notices emitted. -/
theorem exec_keeps_flagsInTick {i : Instr} {s t : State} (hi : isCpu i = true) (hs : FlagsInTick s)
    (h : exec i s = .next t) :
    FlagsInTick t ∧
      firedEvents s.midFired s.endFired ++ frameSync (emitted s i) = firedEvents t.midFired t.endFired := by
  obtain ⟨-, rfl⟩ := exec_next_iff.mp h
  rcases isCpu_cases hi with ⟨c, rfl⟩ | hbus
  · refine ⟨flagsInTick_stepdoneWith hs c, ?_⟩
    rw [after, frameSync_emitted_stepdone, stepdoneWith_midFired, stepdoneWith_endFired]
    exact firedEvents_append_checks hs.midFirst _ _
  · obtain ⟨-, hmid, hend, hphase⟩ := after_sameSchedule_of_isBus s hbus
    rw [frameSync_emitted_of_isBus s hbus, List.append_nil]
    refine ⟨⟨?_, ?_⟩, ?_⟩
    · rw [hmid, hend]
      exact hs.midFirst
    · rw [hphase, hend]
      exact hs.ended
    · rw [hmid, hend]

theorem frameSync_append (es fs : List Event) : frameSync (es ++ fs) = frameSync es ++ frameSync fs :=
  List.filter_append ..

/-- Over any run of the CPU core within a tick, the flags stand for the assertions and frame notices emitted. -/
theorem runInstrs_keeps_flagsInTick {is : List Instr} {s t : State} (his : ∀ i ∈ is, isCpu i = true)
    (h : runInstrs is s = .next t) (hs : FlagsInTick s) :
    FlagsInTick t ∧
      firedEvents s.midFired s.endFired ++ frameSync (newEvents s t) = firedEvents t.midFired t.endFired := by
  induction is generalizing s with
  | nil =>
    cases h
    exact ⟨hs, by simp [newEvents_self, frameSync]⟩
  | cons i is ih =>
    obtain ⟨hi, his⟩ := List.forall_mem_cons.mp his
    obtain ⟨u, hu, h⟩ := runInstrs_cons_next.mp h
    obtain ⟨hflags, hfirst⟩ := exec_keeps_flagsInTick hi hs hu
    obtain ⟨hend, hrest⟩ := ih his h hflags
    refine ⟨hend, ?_⟩
    rw [newEvents_cons hu h, frameSync_append, ← List.append_assoc, hfirst, hrest]

/-- Settles O38: the TICK clears both flags and emits STEP alone, and where the tick has ended both have fired. -/
theorem oneOfEachInterruptPerTick : Obligations.OneOfEachInterruptPerTick := by
  intro x is s t hon hidle hp hc his h ht
  obtain ⟨u, hu, h⟩ := runInstrs_cons_next.mp h
  have hstep : emitted s (.tick x) = [.step] := if_pos ⟨hp, hc⟩
  rw [newEvents_cons hu h, hstep]
  cases (unpausedTick x s hon hidle hp).1 hc ▸ hu
  obtain ⟨hflags, hsync⟩ := runInstrs_keeps_flagsInTick his h ⟨nofun, nofun⟩
  have hend := hflags.ended ht
  rwa [hend, hflags.midFirst hend] at hsync

end Sys2Proof.Machine
end

section
/-! PROOFS. The family of spec/45_video_converter.md: the place of a pixel in video RAM, for any pixel parameters and
any memory, and the STEPDONE that converts the frame (R197, R232). -/

namespace Sys2Proof.Machine

/-- Pixel x of row y is lane x mod 8 of byte x div 8 of the row's 32 (R232). -/
theorem videoFrame_get_xy (on off : Pixel) (mem : Nat → Byte) {x y : Nat} (hx : x < 256) (hy : y < 224) :
    (videoFrame on off mem)[y * 256 + x]? =
      some (if (mem (0x2400 + 32 * y + x / 8)).getLsbD (7 - x % 8) then on else off) := by
  have hbyte : 0x2400 + (y * 256 + x) / 8 = 0x2400 + 32 * y + x / 8 := by omega
  have hlane : (y * 256 + x) % 8 = x % 8 := by omega
  rw [videoFrame_get _ _ _ _ (by omega), hbyte, hlane]

/-- STEPDONE converts the memory it finds, the first time in the tick that the count reaches the budget (R197). -/
theorem stepdoneWith_fb_of_fired {p : Params} {c : BitVec 24} {s : State} (hfirst : s.endFired = false)
    (hbudget : p.cyclesPerTick ≤ s.cycles + c.toNat) :
    (stepdoneWith p c s).fb = videoFrame p.pixelOn p.pixelOff s.memByte := by
  rw [stepdoneWith_eq _ _ _ _ rfl]
  exact if_pos ⟨hfirst, hbudget⟩

/-- Settles O37: the step that reaches the budget converts the frame, whose pixel (x, y) is its bit of video RAM. -/
theorem convertedPixels : Obligations.ConvertedPixels := by
  intro c s x y hon hwait hfirst hbudget hx hy
  refine ⟨stepdoneWith Config.params c s, execStepdone_next.mpr ⟨⟨hon, hwait⟩, rfl⟩, ?_⟩
  rw [State.fbPixel, stepdoneWith_fb_of_fired hfirst hbudget, videoFrame_get_xy _ _ _ hx hy, Option.getD_some]

end Sys2Proof.Machine
end

section
/-! PROOFS. The family of spec/46_control.md: SETUP's check of the images and what it brings up (R251 to R253, R301),
SHUTDOWN (R254), PAUSE (R255) and FBRD (R256). -/

namespace Sys2Proof.Machine

/-! ## The check of the images (R251, R271) -/

theorem romError_cons_of_imageOk {i : Nat} {image : Option (List Byte)} {rest : List (Option (List Byte))}
    (h : ImageOk image) : romError i (image :: rest) = romError (i + 1) rest := by
  obtain ⟨bytes, rfl, hlen⟩ := h
  exact if_pos hlen

theorem romError_cons_of_not_imageOk {i : Nat} {image : Option (List Byte)} {rest : List (Option (List Byte))}
    (h : ¬ ImageOk image) :
    romError i (image :: rest) = some (BitVec.ofNat 8 ((if image = none then 0x10 else 0x20) + i)) := by
  cases image with
  | none => rw [if_pos rfl, BitVec.ofNat_add]; rfl
  | some bytes =>
    have hlen : bytes.length ≠ 2048 := fun hlen => h ⟨bytes, rfl, hlen⟩
    rw [if_neg nofun, BitVec.ofNat_add]
    exact if_neg hlen

/-- The check passes over good images and goes on behind them. -/
theorem romError_append_of_imagesOk {good : List (Option (List Byte))} (h : ∀ image ∈ good, ImageOk image) (i : Nat)
    (rest : List (Option (List Byte))) : romError i (good ++ rest) = romError (i + good.length) rest := by
  induction good generalizing i with
  | nil => rfl
  | cons image good ih =>
    obtain ⟨himage, hgood⟩ := List.forall_mem_cons.mp h
    rw [List.cons_append, romError_cons_of_imageOk himage, ih hgood, List.length_cons, Nat.add_assoc,
      Nat.add_comm 1]

theorem romError_of_imagesOk {images : List (Option (List Byte))} (h : ∀ image ∈ images, ImageOk image) (i : Nat) :
    romError i images = none := by
  have hend := romError_append_of_imagesOk h i []
  rwa [List.append_nil] at hend

/-- The first bad image names the error. -/
theorem romError_of_first_bad {images : List (Option (List Byte))} {k : Nat} {bad : Option (List Byte)}
    (hk : images[k]? = some bad) (hbad : ¬ ImageOk bad) (hgood : ∀ image ∈ images.take k, ImageOk image) :
    romError 0 images = some (BitVec.ofNat 8 ((if bad = none then 0x10 else 0x20) + k)) := by
  obtain ⟨hlt, rfl⟩ := List.getElem?_eq_some_iff.mp hk
  have hstop := romError_append_of_imagesOk hgood 0 (images.drop k)
  rwa [List.take_append_drop, List.drop_eq_getElem_cons hlt, romError_cons_of_not_imageOk hbad, Nat.zero_add,
    List.length_take_of_le hlt.le] at hstop

/-- Settles O48: SETUP is accepted while OFF, and stops at the check, with the first bad image's status. -/
theorem setupNamesTheFirstBadImage : Obligations.SetupNamesTheFirstBadImage := by
  intro x e c s k bad hoff hk hbad hgood
  refine execSetup_next.mpr ⟨hoff, ?_⟩
  rw [setupWith, romError_of_first_bad hk hbad hgood]
  rfl

/-! ## The memory that SETUP brings up (R24, R25, R251) -/

theorem read?_place_of_le {base i : Nat} {bytes : List Byte} (h : base + bytes.length ≤ i) :
    (Memory.place base bytes).read? i = none := by
  rw [read?_place, if_pos (by omega)]
  exact List.getElem?_eq_none (by omega)

/-- SETUP lists no byte behind ROM. -/
theorem read?_romContents_of_le {r : RomImages} (h : romError 0 r.list = none) {i : Nat} (hi : 0x2000 ≤ i) :
    (romContents r).read? i = none := by
  obtain ⟨b0, b1, b2, b3, rfl, h0, h1, h2, h3⟩ := images_of_romError_eq_none h
  simp only [romContents, Option.getD_some, read?_append]
  rw [read?_place_of_le (by omega), read?_place_of_le (by omega), read?_place_of_le (by omega),
    read?_place_of_le (by omega)]
  rfl

/-- Where memory is as SETUP loads it, byte `j` of image `k` stands at 0x800·k + j. -/
theorem memByte_of_romContents {t : State} {r : RomImages} (ht : t.mem = romContents r)
    (h : romError 0 r.list = none) {k j : Nat} {bytes : List Byte} (hk : r.list[k]? = some (some bytes))
    (hj : j < 2048) : t.memByte (0x800 * k + j) = bytes.getD j 0 := by
  obtain ⟨hk4, -⟩ := List.getElem?_eq_some_iff.mp hk
  obtain ⟨_, ⟨⟩, hlen⟩ := romError_eq_none h _ (List.mem_of_getElem? hk)
  rw [State.memByte, ht, read?_romContents h hk4 hj, hk]
  simp [hlen, hj]

/-- Where memory is as SETUP loads it, a byte behind ROM holds its unknown first value. -/
theorem memByte_of_romContents_of_le {t : State} {r : RomImages} (ht : t.mem = romContents r)
    (h : romError 0 r.list = none) {i : Nat} (hi : 0x2000 ≤ i) : t.memByte i = Config.ramInit t.allocDraws i := by
  rw [State.memByte, ht, read?_romContents_of_le h hi]
  rfl

/-- Settles O47: the images pass the check, so SETUP's outcome is the draw's. -/
theorem setupBringsUp : Obligations.SetupBringsUp := by
  intro x e c s hoff himages
  have hrom := romError_of_imagesOk himages 0
  refine ⟨_, execSetup_next.mpr ⟨hoff, rfl⟩, ?_⟩
  rcases setupWith_cases (Config.srInit (s.allocDraws + 1)) (Config.allocDraw (s.allocDraws + 1)) x e c s with
    ⟨status, hbad, -⟩ | ⟨-, hdraw, hsetup⟩ | ⟨-, hdraw, hsetup⟩ | ⟨-, hdraw, hsetup⟩
  · exact nomatch hrom.symm.trans hbad
  · rw [hsetup, hdraw]
    exact ⟨rfl, rfl⟩
  · rw [hsetup, hdraw]
    exact ⟨rfl, rfl⟩
  · rw [hsetup, hdraw]
    exact ⟨rfl, rfl, rfl, rfl, rfl, rfl, rfl, rfl,
      fun _ _ hk _ hj => memByte_of_romContents rfl hrom hk hj,
      fun _ hi _ => memByte_of_romContents_of_le rfl hrom hi,
      rfl, rfl, rfl, rfl, rfl, rfl, rfl, rfl, rfl, rfl, rfl, rfl, rfl, fun _ => rfl⟩

/-! ## A later SETUP (R254) -/

/-- A SETUP that turns the machine on has found good images and both buffers. -/
theorem draw_ok_of_setupWith_on {sr : ShiftInit} {draw : AllocDraw} {x : BitVec 2} {e c : Bool} {s : State}
    (hoff : s.lifecycle = .off) (hon : (setupWith sr draw x e c s).lifecycle = .on) :
    romError 0 s.romPort.list = none ∧ draw = .ok := by
  rcases setupWith_cases sr draw x e c s with ⟨_, -, h⟩ | ⟨-, -, h⟩ | ⟨-, -, h⟩ | ⟨hrom, hdraw, -⟩
  · exact absurd hoff (ne_off_of_on ((congrArg State.lifecycle h).symm.trans hon))
  · exact absurd hoff (ne_off_of_on ((congrArg State.lifecycle h).symm.trans hon))
  · exact absurd hoff (ne_off_of_on ((congrArg State.lifecycle h).symm.trans hon))
  · exact ⟨hrom, hdraw⟩

theorem setupWith_ok {s : State} (hrom : romError 0 s.romPort.list = none) (sr : ShiftInit) (x : BitVec 2)
    (e c : Bool) : setupWith sr .ok x e c s =
      (bringUp sr x e c { s with allocDraws := s.allocDraws + 1 }).respond (.byte 0x00) := by
  rw [setupWith, hrom]

/-- What SETUP brings up reads PAUSED, the trace and the interface alone. -/
theorem bringUp_respond_congr {s u : State} (hpaused : u.paused = s.paused) (htrace : u.trace = s.trace)
    (hinterface : SameInterface s u) (sr : ShiftInit) (x : BitVec 2) (e c : Bool) (a : Answer) :
    (bringUp sr x e c u).respond a = (bringUp sr x e c s).respond a := by
  obtain ⟨hrequests, hport, hdraws⟩ := hinterface
  simp only [bringUp, State.respond, hpaused, htrace, hrequests, hport, hdraws]

/-- Settles O50: a SETUP that succeeds has found good images, the other state's too, and brings up both states alike. -/
theorem setupStartsFromNothing : Obligations.SetupStartsFromNothing := by
  refine ⟨fun x e c s hoff => ⟨_, _, execSetup_next.mpr ⟨hoff, rfl⟩⟩, ?_⟩
  intro sr draw x e c s u hoff _ hpaused htrace hinterface hon
  obtain ⟨hrom, rfl⟩ := draw_ok_of_setupWith_on hoff hon
  obtain ⟨hrequests, hport, hdraws⟩ := hinterface
  have hromu : romError 0 u.romPort.list = none := hport ▸ hrom
  rw [setupWith_ok hrom, setupWith_ok hromu]
  exact bringUp_respond_congr (s := { s with allocDraws := s.allocDraws + 1 })
    (u := { u with allocDraws := u.allocDraws + 1 }) hpaused htrace
    ⟨hrequests, hport, congrArg (· + 1) hdraws⟩ sr x e c _

/-! ## SHUTDOWN, PAUSE and FBRD -/

/-- Settles O49: what SHUTDOWN leaves meets the invariant, by which nothing exists while OFF. -/
theorem shutdownDestroys : Obligations.ShutdownDestroys :=
  fun _ hon hidle => ⟨_, execShutdown_next.mpr ⟨⟨hon, hidle⟩, rfl⟩, rfl, (inv_tearDown hidle).nothing rfl,
    rfl, rfl, rfl, rfl, rfl, rfl⟩

/-- Settles O45: PAUSE is accepted while IDLE, and writes its operand. -/
theorem pauseSetsTheFlag : Obligations.PauseSetsTheFlag :=
  fun _ _ hidle => execPause_next.mpr ⟨hidle, rfl⟩

/-- Settles O46: FBRD is accepted while ON and IDLE, and only answers. -/
theorem frameBufferRead : Obligations.FrameBufferRead :=
  fun _ _ hon hidle hp => execFbrd_next.mpr ⟨hp, ⟨hon, hidle⟩, rfl⟩

end Sys2Proof.Machine
end

section
/-! PROOFS. The family of spec/70_reset_and_hazards.md: what the power-on state accepts and that it meets the invariant
(R300); and the sample words of spec/95_test_vectors.md. -/

namespace Sys2Proof.Machine

/-! ## Power-on (R300) -/

/-- While OFF no transaction is accepted but SETUP and PAUSE (R88's first column, R250). -/
theorem setup_or_pause_of_completes_off {i : Instr} {s : State} (hoff : s.lifecycle = .off)
    (htxn : i.isEvent = false) (hc : Completes s i) : (∃ x e c, i = .setup x e c) ∨ ∃ p, i = .pause p := by
  obtain ⟨-, hacc⟩ := hc
  cases i with
  | setup x e c => exact .inl ⟨x, e, c, rfl⟩
  | pause p => exact .inr ⟨p, rfl⟩
  | evtStep | evtIrq | evtPlay | evtStop | evtFrame | evtTickdone | evtDiag => cases htxn
  | tick | shutdown | fbrd | stepdone => exact absurd hoff (ne_off_of_on hacc.1)
  | _ => exact absurd hoff (ne_off_of_on hacc)

/-- Settles O11: the power-on state is OFF, where nothing else completes. -/
theorem powerOn : Obligations.PowerOn :=
  ⟨rfl, rfl, rfl, fun _ _ htxn h => setup_or_pause_of_completes_off rfl htxn (exec_next_iff.mp h).1⟩

/-- At power-on there is nothing for SHUTDOWN to destroy (R254). -/
theorem tearDown_reset : tearDown State.reset = State.reset := rfl

/-- Settles O58: power-on is a state that SHUTDOWN leaves, and such a state meets the invariant. -/
theorem powerOnInv : Obligations.PowerOnInv := by
  rw [Obligations.PowerOnInv, ← tearDown_reset]
  exact inv_tearDown rfl

end Sys2Proof.Machine

namespace Sys2Proof

/-! ## Sample words (R82, R86) -/

/-- The word that R82 gives a transaction is read as that transaction. -/
theorem decode_of_encode {w : Word} {i : Instr} (hw : encode i = w) (hwf : i.wellFormed = true)
    (htxn : i.isEvent = false) : decode w = some i :=
  hw ▸ transactionRoundTrip i hwf htxn

/-- Settles O1: eleven of the words are the encodings of their instructions (R82), and R86 lists the other two, FBRD
past the last pixel and RSV ≠ 0. -/
theorem sampleWordsDecode : Obligations.SampleWordsDecode := by
  have legal {w : Word} {i : Instr} := decode_of_encode (w := w) (i := i)
  have illegal (w : Word) := (reservedWordsRefused.1 w).mpr
  exact ⟨legal rfl rfl rfl, legal rfl rfl rfl, legal rfl rfl rfl, legal rfl rfl rfl, legal rfl rfl rfl,
    legal rfl rfl rfl, legal rfl rfl rfl, legal rfl rfl rfl, legal rfl rfl rfl, legal rfl rfl rfl,
    legal rfl rfl rfl, illegal _ (by decide), illegal _ (by decide)⟩

end Sys2Proof
end
